-- ==== Sys2Proof/Word.lean ====
section
/-! DEFINITION. The widths of the block: 16-bit words, 8-bit port patterns, 4-bit indices. All values are
unsigned (00_scope.md R13). -/

namespace Sys2Proof

/-- A 16-bit value: a micro-word, a period, a pulse width, a countdown, a sample, a table entry
(00_scope.md R9, `W`). -/
abbrev Word := BitVec 16

/-- An 8-bit value: a pattern of the output port, the tick counter (00_scope.md R9, `OUT_BITS`, `TC_BITS`). -/
abbrev Byte := BitVec 8

/-- A 4-bit value: the micro-pc, a phase, a channel number (00_scope.md R9, `CH_BITS`). -/
abbrev Nibble := BitVec 4

end Sys2Proof
end

