-- ==== Sys2Proof/Syntax.lean ====
section
/-! DEFINITION. The ten operations of the block (30_encoding.md R72) as one inductive, one constructor for each
row of spec/opcode_table.json, in the table's order. -/

namespace Sys2Proof

/-- The three voices (00_scope.md R3). There is no fourth: a voice field above 2 is no instruction (30_encoding.md
R77), so no value of this type stands for one. -/
inductive Voice where
  | v0
  | v1
  | v2
deriving DecidableEq, Repr, Inhabited

/-- One value for each voice. -/
structure PerVoice (α : Type) where
  v0 : α
  v1 : α
  v2 : α
deriving DecidableEq, Repr, Inhabited

/-- A micro-word, decoded. Every constructor carries the guard fields of the word (30_encoding.md R70): `g` is the
guard enable G and `ph` the guard phase PH. -/
inductive Instr where
  /-- `SMP_BEGIN [@ph]`, 42_sampler.md R140. -/
  | smpBegin (g : Bool) (ph : Nibble)
  /-- `TICK_WAIT [@ph]`, 43_scheduler.md R166. -/
  | tickWait (g : Bool) (ph : Nibble)
  /-- `OSC_TICK v [@ph]`, 40_oscillator.md R100. -/
  | oscTick (v : Voice) (g : Bool) (ph : Nibble)
  /-- `PORT_WRITE [@ph]`, 43_scheduler.md R170. -/
  | portWrite (g : Bool) (ph : Nibble)
  /-- `GLOBAL_READ [@ph]`, 41_mapper.md R120. -/
  | globalRead (g : Bool) (ph : Nibble)
  /-- `MAP v [@ph]`, 41_mapper.md R122. -/
  | map (v : Voice) (g : Bool) (ph : Nibble)
  /-- `OSC_SET v [@ph]`, 40_oscillator.md R110. -/
  | oscSet (v : Voice) (g : Bool) (ph : Nibble)
  /-- `SMP_COMPLETE [@ph]`, 42_sampler.md R145. -/
  | smpComplete (g : Bool) (ph : Nibble)
  /-- `CNT_INC [@ph]`, 43_scheduler.md R172. -/
  | cntInc (g : Bool) (ph : Nibble)
  /-- `LOOP [@ph]`, 43_scheduler.md R174. -/
  | loop (g : Bool) (ph : Nibble)
deriving DecidableEq, Repr

/-- The guard enable G of an instruction (30_encoding.md R70). -/
def Instr.guardOn : Instr → Bool
  | .smpBegin g _ => g
  | .tickWait g _ => g
  | .oscTick _ g _ => g
  | .portWrite g _ => g
  | .globalRead g _ => g
  | .map _ g _ => g
  | .oscSet _ g _ => g
  | .smpComplete g _ => g
  | .cntInc g _ => g
  | .loop g _ => g

/-- The guard phase PH of an instruction (30_encoding.md R70). -/
def Instr.guardPhase : Instr → Nibble
  | .smpBegin _ ph => ph
  | .tickWait _ ph => ph
  | .oscTick _ _ ph => ph
  | .portWrite _ ph => ph
  | .globalRead _ ph => ph
  | .map _ _ ph => ph
  | .oscSet _ _ ph => ph
  | .smpComplete _ ph => ph
  | .cntInc _ ph => ph
  | .loop _ ph => ph

end Sys2Proof
end

