-- ==== Sys2Proof/WellFormed.lean ====
section
/-! DEFINITION. What makes an instruction term one that a legal micro-word stands for (30_encoding.md R76). The
voice field needs no check, since `Voice` holds only the three legal values. -/

namespace Sys2Proof

/-- 30_encoding.md R70 and R76: PH must be 0 when G = 0. -/
def guardWellFormed (g : Bool) (ph : Nibble) : Bool := g || ph == 0

/-- The instruction is one that a legal word stands for. -/
def Instr.wellFormed : Instr → Bool
  | .smpBegin g ph => guardWellFormed g ph
  | .tickWait g ph => guardWellFormed g ph
  | .oscTick _ g ph => guardWellFormed g ph
  | .portWrite g ph => guardWellFormed g ph
  | .globalRead g ph => guardWellFormed g ph
  | .map _ g ph => guardWellFormed g ph
  | .oscSet _ g ph => guardWellFormed g ph
  | .smpComplete g ph => guardWellFormed g ph
  | .cntInc g ph => guardWellFormed g ph
  | .loop g ph => guardWellFormed g ph

end Sys2Proof
end

