-- ==== Sys2Proof/Decode.lean ====
section
/-! DEFINITION. The decoder, total on all 65536 words and refusing by name, and the encoder, both written from
30_encoding.md R70, R72 and R76. -/

namespace Sys2Proof

/-- Why a word is illegal (30_encoding.md R77). Every one of these raises the same fault, ILLEGAL (R78). -/
inductive DecodeError where
  /-- OP is 0x0 or 0xB..0xF. -/
  | reservedOperation
  /-- Z, bits 6:4, is not 0. -/
  | reservedBits
  /-- G = 0 and PH is not 0. -/
  | phaseWithoutGuard
  /-- A is 3 or more for an operation that takes a voice. -/
  | noSuchVoice
  /-- A is not 0 for an operation that takes no operand. -/
  | operandNotZero
deriving DecidableEq, Repr

/-- OP, bits 15:12. -/
def fieldOp (w : Word) : Nibble := w.extractLsb' 12 4

/-- A, bits 11:8. -/
def fieldA (w : Word) : Nibble := w.extractLsb' 8 4

/-- G, bit 7. -/
def fieldG (w : Word) : Bool := w.getLsbD 7

/-- Z, bits 6:4. -/
def fieldZ (w : Word) : BitVec 3 := w.extractLsb' 4 3

/-- PH, bits 3:0. -/
def fieldPh (w : Word) : Nibble := w.extractLsb' 0 4

/-- The voice that a field A names, 0..2 (30_encoding.md R71). -/
def voiceOfField (a : Nibble) : Option Voice :=
  if a = 0 then some .v0 else if a = 1 then some .v1 else if a = 2 then some .v2 else none

/-- The field A that names a voice. -/
def fieldOfVoice : Voice → Nibble
  | .v0 => 0
  | .v1 => 1
  | .v2 => 2

/-- An operation with a voice operand: A must be 0..2. -/
def withVoice (a : Nibble) (mk : Voice → Instr) : Except DecodeError Instr :=
  match voiceOfField a with
  | some v => .ok (mk v)
  | none => .error .noSuchVoice

/-- An operation without an operand: A must be 0. -/
def withoutOperand (a : Nibble) (i : Instr) : Except DecodeError Instr :=
  if a = 0 then .ok i else .error .operandNotZero

/-- The operation that OP names, with its operand A and its guard (30_encoding.md R72). -/
def decodeOperation (op a : Nibble) (g : Bool) (ph : Nibble) : Except DecodeError Instr :=
  if op = 0x1 then withoutOperand a (.smpBegin g ph)
  else if op = 0x2 then withoutOperand a (.tickWait g ph)
  else if op = 0x3 then withVoice a (fun v => .oscTick v g ph)
  else if op = 0x4 then withoutOperand a (.portWrite g ph)
  else if op = 0x5 then withoutOperand a (.globalRead g ph)
  else if op = 0x6 then withVoice a (fun v => .map v g ph)
  else if op = 0x7 then withVoice a (fun v => .oscSet v g ph)
  else if op = 0x8 then withoutOperand a (.smpComplete g ph)
  else if op = 0x9 then withoutOperand a (.cntInc g ph)
  else if op = 0xA then withoutOperand a (.loop g ph)
  else .error .reservedOperation

/-- The instruction a word stands for, or why it is illegal (30_encoding.md R76, R77). -/
def decode (w : Word) : Except DecodeError Instr :=
  if fieldZ w ≠ 0 then .error .reservedBits
  else if fieldG w = false ∧ fieldPh w ≠ 0 then .error .phaseWithoutGuard
  else decodeOperation (fieldOp w) (fieldA w) (fieldG w) (fieldPh w)

/-- `enc(OP, A, G, PH)` of 30_encoding.md R70, with Z = 0. -/
def encodeFields (op a : Nibble) (g : Bool) (ph : Nibble) : Word :=
  op ++ (a ++ (BitVec.ofBool g ++ ((0 : BitVec 3) ++ ph)))

/-- The word of an instruction (30_encoding.md R70, R72). -/
def encode : Instr → Word
  | .smpBegin g ph => encodeFields 0x1 0 g ph
  | .tickWait g ph => encodeFields 0x2 0 g ph
  | .oscTick v g ph => encodeFields 0x3 (fieldOfVoice v) g ph
  | .portWrite g ph => encodeFields 0x4 0 g ph
  | .globalRead g ph => encodeFields 0x5 0 g ph
  | .map v g ph => encodeFields 0x6 (fieldOfVoice v) g ph
  | .oscSet v g ph => encodeFields 0x7 (fieldOfVoice v) g ph
  | .smpComplete g ph => encodeFields 0x8 0 g ph
  | .cntInc g ph => encodeFields 0x9 0 g ph
  | .loop g ph => encodeFields 0xA 0 g ph

/-- The instruction the decoder reads from the low `nbits` bits of `w`, the bits above being 0. Every micro-word is
exactly 16 bits (30_encoding.md R70, R79), so more than 16 bits are no instruction; log 19. -/
def decodeTableWord (nbits w : Nat) : Option Instr :=
  if nbits ≤ 16 then
    match decode (BitVec.ofNat 16 (w % 2 ^ nbits)) with
    | .ok i => some i
    | .error _ => none
  else none

end Sys2Proof
end

