-- ==== Sys2Proof/Config.lean ====
section
/-! DEFINITION. The parameters of the block (00_scope.md R9), the moves its environment can make, and the free
values: constants with no body, so that nothing can be proved about which value they have. -/

namespace Sys2Proof

/-- What an out-of-range table index does (41_mapper.md R124). -/
inductive IndexPolicy where
  | fault
  | clamp
deriving DecidableEq, Repr, Inhabited

/-- The parameters of 00_scope.md R9 that a host supplies before it releases reset (70_reset_and_hazards.md R234),
but for `SEQ_ROM`, which stands beside them in the state. They travel in the state and no micro-word changes them
(log 9). -/
structure Params where
  /-- `N_CH`: the channels swept, and the slots of the sample buffer. -/
  nCh : Nat
  /-- `GSLOT_P`: the slot of the global period control. -/
  gslotP : Nat
  /-- `GSLOT_W`: the slot of the global pulse-width control. -/
  gslotW : Nat
  /-- `VSLOT_P(v)`: the slot of each voice's period control. -/
  vslotP : PerVoice Nat
  /-- `VSLOT_W(v)`: the slot of each voice's pulse-width control. -/
  vslotW : PerVoice Nat
  /-- `VOICE_BIT(v)`: the port bit each voice drives; below 8 (R10) by its type. -/
  voiceBit : PerVoice (Fin 8)
  /-- `INDEX_POLICY`. -/
  indexPolicy : IndexPolicy
  /-- `ADC_START_GATED`. -/
  adcStartGated : Bool
  /-- `TABLE`; its length is `TABLE_LEN`. -/
  table : List Word
  /-- `INIT_PERIOD(v)`. -/
  initPeriod : PerVoice Word
  /-- `INIT_PW(v)`. -/
  initPulse : PerVoice Word
  /-- `INIT_COUNTDOWN(v)`. -/
  initCountdown : PerVoice Word
  /-- `TICK_PERIOD`. -/
  tickPeriod : Word
deriving DecidableEq, Repr

/-- The sequencer ROM: 16 micro-words (20_memory.md R51). -/
abbrev Rom := Vector Word 16

/-- What the host does between two steps of the block (70_reset_and_hazards.md R230, R234). -/
inductive HostMove where
  /-- Nothing. While reset is held: reset is released. -/
  | idle
  /-- Reset is applied, or goes on being held. -/
  | reset
  /-- Reset is held and the parameters, TABLE and SEQ_ROM are supplied anew. While the block runs there is no such
  move (93_implementation_defined.md U17, log 16). -/
  | supply (cfg : Params) (rom : Rom)
deriving DecidableEq, Repr, Inhabited

/-- What the environment does between two steps of the block (00_scope.md R12, 60_exceptions.md R209). -/
structure EnvMove where
  /-- The host's part. -/
  host : HostMove
  /-- The timer sets its elapsed flag, if it is running (43_scheduler.md R167). -/
  timerElapses : Bool
  /-- The ADC completes the conversion in flight with this reading, if there is one (42_sampler.md R142). -/
  adcCompletes : Option Word
deriving DecidableEq, Repr, Inhabited

/-- FREE. What the environment does at each moment (60_exceptions.md R209, 93_implementation_defined.md U8, U9). -/
opaque Config.environment : Nat → EnvMove

/-- FREE. `ADC.result` after a reset at each moment: unspecified (10_state.md R41, log 5). -/
opaque Config.adcResultAtReset : Nat → Word

/-- FREE. `INIT_PERIOD`: OPEN (00_scope.md R9, log 6). -/
opaque Config.initPeriod : Voice → Word

/-- FREE. `INIT_PW`: OPEN (00_scope.md R9, log 6). -/
opaque Config.initPulse : Voice → Word

/-- FREE. `INIT_COUNTDOWN`: OPEN (00_scope.md R9, log 6). -/
opaque Config.initCountdown : Voice → Word

/-- FREE. `TICK_PERIOD`: OPEN (00_scope.md R9, log 8). -/
opaque Config.tickPeriod : Word

/-- FREE. `TABLE`: OPEN (00_scope.md R9, log 7). -/
opaque Config.tableEntry : Nat → Word

/-- FREE. Chooses `TABLE_LEN` among the lengths R10 allows (log 7). -/
opaque Config.tableLenChoice : Nat

/-- `TABLE_LEN`: OPEN, any length from 256 to 65536 (00_scope.md R9, R10). -/
def Config.tableLen : Nat := 256 + Config.tableLenChoice % (65536 - 256 + 1)

/-- A value for each voice from a function of the voice. -/
def PerVoice.ofFun {α : Type} (f : Voice → α) : PerVoice α := { v0 := f .v0, v1 := f .v1, v2 := f .v2 }

/-- The parameters of this hardware: each fixed value as 00_scope.md R9 fixes it, each OPEN one free. -/
def Config.params : Params where
  nCh := 8
  gslotP := 6
  gslotW := 7
  vslotP := { v0 := 0, v1 := 2, v2 := 4 }
  vslotW := { v0 := 1, v1 := 3, v2 := 5 }
  voiceBit := { v0 := 0, v1 := 1, v2 := 2 }
  indexPolicy := .fault
  adcStartGated := false
  table := (List.range Config.tableLen).map Config.tableEntry
  initPeriod := PerVoice.ofFun Config.initPeriod
  initPulse := PerVoice.ofFun Config.initPulse
  initCountdown := PerVoice.ofFun Config.initCountdown
  tickPeriod := Config.tickPeriod

/-- The default `SEQ_ROM`, word for word from the table of 43_scheduler.md R161. -/
def Config.defaultRom : Rom :=
  #v[0x1000, 0x2000, 0x3000, 0x3100, 0x3200, 0x4000, 0x5000, 0x6084,
     0x7084, 0x6188, 0x7188, 0x628C, 0x728C, 0x8080, 0x9000, 0xA000]

end Sys2Proof
end

