-- ==== Sys2Proof/Machine/State.lean ====
section
/-! DEFINITION. The machine's state: every register and store of 10_state.md and 20_memory.md, the state of the ADC,
the timer and the port that the block observes, and the parameters it runs under. Reset is here (10_state.md R41). -/

namespace Sys2Proof.Machine

/-- An access to a place the spec says does not exist. No run of a configuration that 00_scope.md R10 allows reaches
either (log 10); the faults of 60_exceptions.md R201 are not these: entering one is a next state. -/
inductive Fault where
  /-- A slot number at or above `N_CH` (20_memory.md R51). Raised by `GLOBAL_READ`, `MAP` and `SMP_COMPLETE` under a
  configuration R10 forbids. Safe: the machine stops. -/
  | noSuchSlot (i : Nat)
  /-- A table index at or above `TABLE_LEN` (20_memory.md R52). Raised by `MAP` under `clamp` with an empty table, which
  R10 forbids. Safe: the machine stops. -/
  | noSuchTableEntry (i : Nat)
deriving DecidableEq, Repr

/-- Why a step has no meaning. -/
inductive Refusal where
  /-- An instruction without a meaning yet. No arm of `exec` raises it: every instruction has its meaning. Safe. -/
  | notModelled (mnemonic : String)
  /-- Reset is released under a configuration that 00_scope.md R10 forbids, which "the model" refuses. Safe. -/
  | illegalConfiguration
deriving DecidableEq, Repr

/-- The three registers of one voice (10_state.md R20). -/
structure Osc where
  /-- `OSC[v].P`, the period. -/
  p : Word
  /-- `OSC[v].W`, the pulse width. -/
  w : Word
  /-- `OSC[v].C`, the countdown. -/
  c : Word
deriving DecidableEq, Repr

/-- One slot of the sample buffer (10_state.md R23, R24). -/
structure Slot where
  /-- `BUF[i]`. -/
  value : Word
  /-- `VALID[i]`. -/
  valid : Bool
deriving DecidableEq, Repr

/-- `GLAT` (10_state.md R28). -/
structure GlobalLatch where
  gp : Word
  gw : Word
  valid : Bool
deriving DecidableEq, Repr

/-- `MAPOUT` (10_state.md R29). -/
structure MapLatch where
  p : Word
  w : Word
  valid : Bool
deriving DecidableEq, Repr

/-- The codes of `FAULT.cause` (60_exceptions.md R201). -/
inductive Cause where
  /-- Code 0. -/
  | none
  /-- Code 1, `IDX`. -/
  | idx
  /-- Code 2, `ILLEGAL`. -/
  | illegal
  /-- Code 3, `LATCH`. -/
  | latch
deriving DecidableEq, Repr

/-- `FAULT` (10_state.md R32). -/
structure FaultReg where
  cause : Cause
  info : Word
  upc : Nibble
deriving DecidableEq, Repr

/-- The state of the ADC that the block observes (10_state.md R35). -/
structure Adc where
  busy : Bool
  done : Bool
  ch : Nibble
  result : Word
deriving DecidableEq, Repr

/-- The state of the tick timer that the block observes (10_state.md R36). -/
structure Timer where
  elapsed : Bool
  running : Bool
  period : Word
deriving DecidableEq, Repr

/-- A transaction of the block's boundary (20_memory.md R58). -/
inductive Transaction where
  /-- `tmr_start(n)`. -/
  | tmrStart (n : Word)
  /-- `tmr_clear`. -/
  | tmrClear
  /-- `adc_start(ch)`. -/
  | adcStart (ch : Nibble)
  /-- `port_wr(b)`. -/
  | portWr (b : Byte)
  /-- `tbl_addr`, `tbl_data`: one table read and its answer. -/
  | tblRead (addr data : Word)
deriving DecidableEq, Repr

/-- The state of the machine. -/
structure State where
  /-- `OSC[v]` (10_state.md R20). -/
  osc : PerVoice Osc
  /-- `BUF[i]` and `VALID[i]`, slot 0 first (10_state.md R23, R24). -/
  slots : List Slot
  /-- `CH` (10_state.md R25). -/
  ch : Nibble
  /-- `TC` (10_state.md R26). -/
  tc : Byte
  /-- `GLAT` (10_state.md R28). -/
  glat : GlobalLatch
  /-- `MAPOUT` (10_state.md R29). -/
  mapout : MapLatch
  /-- `OUTACC` (10_state.md R30). -/
  outacc : Byte
  /-- `upc` (10_state.md R31). -/
  upc : Nibble
  /-- `FAULT` (10_state.md R32). -/
  fault : FaultReg
  /-- `ADC` (10_state.md R35). -/
  adc : Adc
  /-- `TMR` (10_state.md R36). -/
  tmr : Timer
  /-- `PORT`; `none` is "no write yet" (10_state.md R37, R42). -/
  port : Option Byte
  /-- `SEQ_ROM` (20_memory.md R51). -/
  rom : Rom
  /-- The parameters (00_scope.md R9), TABLE among them. -/
  cfg : Params
  /-- `rst`: reset is held (20_memory.md R58, 70_reset_and_hazards.md R230). -/
  rst : Bool
  /-- The MODEL's own: the boundary's transactions since reset, newest first (20_memory.md R57, log 13). -/
  events : List Transaction
  /-- The MODEL's own: the environment's moves already settled, next first (log 2). -/
  inputs : List EnvMove
  /-- The MODEL's own: how many moves of the environment have been made; free values are read at it (log 2). -/
  moment : Nat
deriving DecidableEq, Repr

/-- The registers of a voice after reset (10_state.md R41). -/
def oscAtReset (cfg : Params) : PerVoice Osc where
  v0 := { p := cfg.initPeriod.v0, w := cfg.initPulse.v0, c := cfg.initCountdown.v0 }
  v1 := { p := cfg.initPeriod.v1, w := cfg.initPulse.v1, c := cfg.initCountdown.v1 }
  v2 := { p := cfg.initPeriod.v2, w := cfg.initPulse.v2, c := cfg.initCountdown.v2 }

/-- Reset applied and held: every value of the table of 10_state.md R41, under the parameters `cfg` and the micro-program
`rom`. `TMR.running` and `TMR.period` wait for the boot start (log 4). -/
def State.atReset (cfg : Params) (rom : Rom) (inputs : List EnvMove) (moment : Nat) : State where
  osc := oscAtReset cfg
  slots := List.replicate cfg.nCh { value := 0, valid := false }
  ch := 0
  tc := 0
  glat := { gp := 0, gw := 0, valid := false }
  mapout := { p := 0, w := 0, valid := false }
  outacc := 0
  upc := 0
  fault := { cause := .none, info := 0, upc := 0 }
  adc := { busy := false, done := false, ch := 0, result := Config.adcResultAtReset moment }
  tmr := { elapsed := false, running := false, period := 0 }
  port := none
  rom := rom
  cfg := cfg
  rst := true
  events := []
  inputs := inputs
  moment := moment

/-- The machine right after reset: this hardware's parameters and the default micro-program (00_scope.md R9), reset
still held, no move of the environment settled (log 2, log 3). -/
def State.reset : State := State.atReset Config.params Config.defaultRom [] 0

end Sys2Proof.Machine
end

