-- ==== Sys2Proof/Machine/Flags.lean ====
section
/-! DEFINITION. The block's flags and derived bits. It has no condition codes (10_state.md R34): what it computes a bit
from is the tick phase, the oscillator's level, the fault output and the bits of the output accumulator. -/

namespace Sys2Proof.Machine

/-- `phase()`: `TC[3:0]` (10_state.md R27). -/
def phase (s : State) : Nibble := s.tc.extractLsb' 0 4

/-- The level of a voice: its new countdown is below its pulse width, unsigned (40_oscillator.md R102). -/
def level (c w : Word) : Bool := c.ult w

/-- `fault_o`: `FAULT.cause != 0` (10_state.md R33). -/
def faultOut (s : State) : Bool := s.fault.cause != .none

/-- The 2-bit code of a cause (60_exceptions.md R201). -/
def causeCode : Cause → BitVec 2
  | .none => 0
  | .idx => 1
  | .illegal => 2
  | .latch => 3

/-- `b` with bit `i` set to `x` and every other bit kept (40_oscillator.md R100, 43_scheduler.md R165). -/
def setBit (b : Byte) (i : Fin 8) (x : Bool) : Byte :=
  if x then b ||| (1#8 <<< i.val) else b &&& ~~~(1#8 <<< i.val)

end Sys2Proof.Machine
end

