-- ==== Sys2Proof/Machine/Operands.lean ====
section
/-! DEFINITION. The operands of a micro-word: what a voice number selects (30_encoding.md R71), and whether the guard
lets the word be performed (R74). -/

namespace Sys2Proof.Machine

/-- The value of one voice. -/
def PerVoice.get {α : Type} (t : PerVoice α) : Voice → α
  | .v0 => t.v0
  | .v1 => t.v1
  | .v2 => t.v2

/-- The values with one voice's replaced; the other two are kept (10_state.md R20: none aliases another). -/
def PerVoice.set {α : Type} (t : PerVoice α) (v : Voice) (x : α) : PerVoice α :=
  match v with
  | .v0 => { t with v0 := x }
  | .v1 => { t with v1 := x }
  | .v2 => { t with v2 := x }

/-- `OSC[v]`. -/
def oscOf (s : State) (v : Voice) : Osc := PerVoice.get s.osc v

/-- `VSLOT_P(v)`. -/
def voiceSlotP (s : State) (v : Voice) : Nat := PerVoice.get s.cfg.vslotP v

/-- `VSLOT_W(v)`. -/
def voiceSlotW (s : State) (v : Voice) : Nat := PerVoice.get s.cfg.vslotW v

/-- `VOICE_BIT(v)`. -/
def voiceBit (s : State) (v : Voice) : Fin 8 := PerVoice.get s.cfg.voiceBit v

/-- The guard lets the word be performed: it is off, or its phase is the tick's (30_encoding.md R74). -/
def guardPasses (g : Bool) (ph : Nibble) (s : State) : Bool := !g || ph == phase s

end Sys2Proof.Machine
end

