-- ==== Sys2Proof/Machine/Ops.lean ====
section
/-! DEFINITION. The named operations the meanings share: the micro-pc, the guard, the three storage spaces, the
transactions of the boundary, entering a fault, reset, and the moves of the environment. -/

namespace Sys2Proof.Machine

/-- The outcome of a step of this machine. -/
abbrev Result := Host.Outcome State Fault Refusal

/-- What follows a step that answered a next state. -/
def mapNext (f : State → State) : Result → Result
  | .next s => .next (f s)
  | .fault r => .fault r
  | .refused r => .refused r

/-! ### The micro-pc and the guard -/

/-- `upc <- (upc + 1) mod 16` (10_state.md R31). -/
def advance (s : State) : State := { s with upc := s.upc + 1 }

/-- The guard: the word is performed, or skipped, which changes nothing but `upc` (30_encoding.md R74). -/
def guarded (g : Bool) (ph : Nibble) (s : State) (perform : Result) : Result :=
  if guardPasses g ph s then perform else .next (advance s)

/-! ### Entering a fault -/

/-- `raise Fault(cause, info)`: FAULT is written and nothing else is, `upc` not even (60_exceptions.md R203). There is
no handler and no return: only reset leaves the halted state (R204, R205). -/
def raiseFault (cause : Cause) (info : Word) (s : State) : State :=
  { s with fault := { cause := cause, info := info, upc := s.upc } }

/-! ### The storage spaces -/

/-- `N_CH` of the configuration. -/
def channels (s : State) : Nat := s.cfg.nCh

/-- The slot of a number, if there is one (20_memory.md R51, R53). -/
def slotAt (s : State) (i : Nat) : Option Slot := s.slots[i]?

/-- `BUF[i]`, if there is such a slot. -/
def readSlot (s : State) (i : Nat) : Option Word := (slotAt s i).map Slot.value

/-- `BUF[i] <- x; VALID[i] <- 1`, one slot (42_sampler.md R145). -/
def writeSlot (s : State) (i : Nat) (x : Word) : State :=
  { s with slots := s.slots.set i { value := x, valid := true } }

/-- The sample buffer has its `N_CH` slots (20_memory.md R51). `SEQ_ROM` has its 16 words by its type, and the table is a
parameter. Every operation keeps this form (Laws/Storage.lean). -/
def Memory.wf (s : State) : Bool := s.slots.length == s.cfg.nCh

/-- `TABLE[i]`, if there is such an entry (20_memory.md R52). -/
def tableAt (s : State) (i : Nat) : Option Word := s.cfg.table[i]?

/-- `TABLE_LEN`. -/
def tableLen (s : State) : Nat := s.cfg.table.length

/-- `SEQ_ROM[upc]`: the fetch (30_encoding.md R73). -/
def fetch (s : State) : Word := s.rom[s.upc.toNat]'s.upc.isLt

/-! ### The boundary -/

/-- A transaction is made: the newest stands first. -/
def record (t : Transaction) (s : State) : State := { s with events := t :: s.events }

/-- `AdcStart(ch)`: the request and the ADC's response, one atomic step (42_sampler.md R141). -/
def adcStart (ch : Nibble) (s : State) : State :=
  record (.adcStart ch) { s with adc := { s.adc with busy := true, done := false, ch := ch } }

/-- `TickClear()` (10_state.md R36). -/
def tickClear (s : State) : State :=
  record .tmrClear { s with tmr := { s.tmr with elapsed := false } }

/-- `PortWrite(b)`: all 8 bits in one access (20_memory.md R57). -/
def portOut (b : Byte) (s : State) : State := record (.portWr b) { s with port := some b }

/-- `TimerStart(n)` (70_reset_and_hazards.md R231). -/
def timerStart (n : Word) (s : State) : State :=
  record (.tmrStart n) { s with tmr := { elapsed := false, running := true, period := n } }

/-! ### The environment -/

/-- The timer's step: it may set its flag while it is running (43_scheduler.md R167). -/
def timerMove (elapses : Bool) (s : State) : State :=
  if elapses && s.tmr.running then { s with tmr := { s.tmr with elapsed := true } } else s

/-- The ADC's step: it may complete a conversion in flight, the result and the flag together (42_sampler.md R142,
20_memory.md R63). -/
def adcMove (reading : Option Word) (s : State) : State :=
  match reading with
  | some r => if s.adc.busy then { s with adc := { s.adc with busy := false, done := true, result := r } } else s
  | none => s

/-- The steps of the timer and the ADC between two steps of the block. They write disjoint state, so one of each, in
either order, stands for every interleaving (60_exceptions.md R209, log 1). -/
def agentsMove (e : EnvMove) (s : State) : State := adcMove e.adcCompletes (timerMove e.timerElapses s)

/-- Reset is applied, in any state (70_reset_and_hazards.md R230). The micro-program and the parameters stay. -/
def applyReset (s : State) : State := State.atReset s.cfg s.rom s.inputs s.moment

/-- The next move of the environment: the first settled one, or a free one (log 2). -/
def nextMove (s : State) : EnvMove := s.inputs.headD (Config.environment s.moment)

/-- The next move of the environment is made. -/
def consumeMove (s : State) : State := { s with inputs := s.inputs.tail, moment := s.moment + 1 }

/-- What a move does while the block is out of reset: the host may apply reset, else the timer and the ADC take their
steps. The host's other move does not exist here (93_implementation_defined.md U17, log 16). -/
def environmentStep (e : EnvMove) (s : State) : State :=
  match e.host with
  | .reset => applyReset s
  | .idle => agentsMove e s
  | .supply _ _ => agentsMove e s

/-- What the environment does after the block's step. -/
def environment (s : State) : State := environmentStep (nextMove s) (consumeMove s)

end Sys2Proof.Machine
end

