-- ==== Sys2Proof/Machine/Mapper.lean ====
section
/-! DEFINITION. The parameter mapper, 41_mapper.md: `GLOBAL_READ` and `MAP v`. Its arithmetic is exact (R126). -/

namespace Sys2Proof.Machine

/-- What `GLOBAL_READ` does when performed (41_mapper.md R120). -/
def readGlobals (s : State) : Result :=
  match readSlot s s.cfg.gslotP, readSlot s s.cfg.gslotW with
  | some gp, some gw => .next (advance { s with glat := { gp := gp, gw := gw, valid := true } })
  | none, _ => .fault (.noSuchSlot s.cfg.gslotP)
  | some _, none => .fault (.noSuchSlot s.cfg.gslotW)

/-- `GLOBAL_READ` (41_mapper.md R120). -/
def execGlobalRead (g : Bool) (ph : Nibble) (s : State) : Result := guarded g ph s (readGlobals s)

/-- `index = (vp + gp) / 4`, exact and rounded down (41_mapper.md R122, R123). DEDUCED: where both controls are below 4 and
their sum is 4 to 6 this is index 1, although 20_memory.md R60 says that index 0 is the entry selected (log 22). -/
def mapIndex (vp gp : Word) : Nat := (vp.toNat + gp.toNat) / 4

/-- The index the table is read at, or none where the index is out of range and the policy is to fault
(41_mapper.md R124). -/
def selectIndex (policy : IndexPolicy) (len index : Nat) : Option Nat :=
  if index < len then some index
  else
    match policy with
    | .fault => none
    | .clamp => some (len - 1)

/-- `divisor = 15 + (1 + vw / 16) * (1 + gw / 16)` (41_mapper.md R125). -/
def mapDivisor (vw gw : Word) : Nat := 15 + (1 + vw.toNat / 16) * (1 + gw.toNat / 16)

/-- `pw = (period * 8) / divisor`; it fits 16 bits (41_mapper.md R125). -/
def mapPulse (period vw gw : Word) : Word := BitVec.ofNat 16 (period.toNat * 8 / mapDivisor vw gw)

/-- The table read and what follows it: the transaction, and `MAPOUT` (41_mapper.md R122). -/
def mapAt (i : Nat) (vw gw : Word) (s : State) : Result :=
  match tableAt s i with
  | some period =>
    .next (advance (record (.tblRead (BitVec.ofNat 16 i) period)
      { s with mapout := { p := period, w := mapPulse period vw gw, valid := true } }))
  | none => .fault (.noSuchTableEntry i)

/-- `MAP v` from a voice's raw pair on: the index, its check, the table (41_mapper.md R122 to R125). -/
def mapRaw (vp vw : Word) (s : State) : Result :=
  let index := mapIndex vp s.glat.gp
  match selectIndex s.cfg.indexPolicy (tableLen s) index with
  | some i => mapAt i vw s.glat.gw s
  | none => .next (raiseFault .idx (BitVec.ofNat 16 index) s)

/-- What `MAP v` does when performed with a valid `GLAT` (41_mapper.md R122). -/
def mapVoice (v : Voice) (s : State) : Result :=
  match readSlot s (voiceSlotP s v), readSlot s (voiceSlotW s v) with
  | some vp, some vw => mapRaw vp vw s
  | none, _ => .fault (.noSuchSlot (voiceSlotP s v))
  | some _, none => .fault (.noSuchSlot (voiceSlotW s v))

/-- `MAP v` (41_mapper.md R122): `LATCH` is checked before `IDX` (60_exceptions.md R206), before anything is read. -/
def execMap (v : Voice) (g : Bool) (ph : Nibble) (s : State) : Result :=
  guarded g ph s
    (if s.glat.valid then mapVoice v s
     else .next (raiseFault .latch (encode (.map v g ph)) s))

end Sys2Proof.Machine
end

