-- ==== Sys2Proof/Machine/Oscillator.lean ====
section
/-! DEFINITION. The oscillator operations, 40_oscillator.md: `OSC_TICK v` and `OSC_SET v`. -/

namespace Sys2Proof.Machine

/-- The countdown after one tick: decremented with 16-bit wrap, and reloaded from the period when it reaches 0
(40_oscillator.md R100, R101, R103). -/
def nextCountdown (o : Osc) : Word :=
  let c := o.c - 1
  if c = 0 then o.p else c

/-- What `OSC_TICK v` does when performed (40_oscillator.md R100): the level is taken from the new countdown (R102). -/
def tickVoice (v : Voice) (s : State) : State :=
  let o := oscOf s v
  let c := nextCountdown o
  { s with
    osc := PerVoice.set s.osc v { o with c := c }
    outacc := setBit s.outacc (voiceBit s v) (level c o.w) }

/-- `OSC_TICK v` (40_oscillator.md R100). -/
def execOscTick (v : Voice) (g : Bool) (ph : Nibble) (s : State) : Result :=
  guarded g ph s (.next (advance (tickVoice v s)))

/-- What `OSC_SET v` writes: the period and the pulse width, not the countdown (40_oscillator.md R110, R111). -/
def setVoice (v : Voice) (s : State) : State :=
  { s with osc := PerVoice.set s.osc v { oscOf s v with p := s.mapout.p, w := s.mapout.w } }

/-- `OSC_SET v` (40_oscillator.md R110): an invalid `MAPOUT` raises `LATCH` with the word. -/
def execOscSet (v : Voice) (g : Bool) (ph : Nibble) (s : State) : Result :=
  guarded g ph s
    (if s.mapout.valid then .next (advance (setVoice v s))
     else .next (raiseFault .latch (encode (.oscSet v g ph)) s))

end Sys2Proof.Machine
end

