-- ==== Sys2Proof/Machine/Sampler.lean ====
section
/-! DEFINITION. The ADC round-robin sampler, 42_sampler.md: `SMP_BEGIN` and `SMP_COMPLETE`. -/

namespace Sys2Proof.Machine

/-- What `SMP_BEGIN` does when performed: a request on channel `CH`, unless starts are gated and a conversion is in
flight (42_sampler.md R140, R141). -/
def beginSample (s : State) : State :=
  if s.cfg.adcStartGated && s.adc.busy then s else adcStart s.ch s

/-- `SMP_BEGIN` (42_sampler.md R140). -/
def execSmpBegin (g : Bool) (ph : Nibble) (s : State) : Result :=
  guarded g ph s (.next (advance (beginSample s)))

/-- `(CH + 1) mod N_CH` (42_sampler.md R145). -/
def nextChannel (s : State) : Nibble := BitVec.ofNat 4 ((s.ch.toNat + 1) % channels s)

/-- What `SMP_COMPLETE` does when the conversion is done: the slot and its flag are written and the channel moves on;
`ADC.done` stays (42_sampler.md R145). -/
def storeSample (s : State) : Result :=
  match slotAt s s.ch.toNat with
  | some _ => .next (advance { writeSlot s s.ch.toNat s.adc.result with ch := nextChannel s })
  | none => .fault (.noSuchSlot s.ch.toNat)

/-- `SMP_COMPLETE` (42_sampler.md R145): while `ADC.done = 0` it holds, changing nothing (log 11). -/
def execSmpComplete (g : Bool) (ph : Nibble) (s : State) : Result :=
  guarded g ph s (if s.adc.done then storeSample s else .next s)

end Sys2Proof.Machine
end

