-- ==== Sys2Proof/Machine/Scheduler.lean ====
section
/-! DEFINITION. The tick scheduler's operations, 43_scheduler.md: `TICK_WAIT`, `PORT_WRITE`, `CNT_INC`, `LOOP`. -/

namespace Sys2Proof.Machine

/-- `TICK_WAIT` (43_scheduler.md R166): while `TMR.elapsed = 0` it holds, changing nothing (log 11); once it is set it is
read and cleared in one step. -/
def execTickWait (g : Bool) (ph : Nibble) (s : State) : Result :=
  guarded g ph s (if s.tmr.elapsed then .next (advance (tickClear s)) else .next s)

/-- `PORT_WRITE` (43_scheduler.md R170). -/
def execPortWrite (g : Bool) (ph : Nibble) (s : State) : Result :=
  guarded g ph s (.next (advance (portOut s.outacc s)))

/-- `CNT_INC` (43_scheduler.md R172). -/
def execCntInc (g : Bool) (ph : Nibble) (s : State) : Result :=
  guarded g ph s (.next (advance { s with tc := s.tc + 1 }))

/-- `LOOP` (43_scheduler.md R174). -/
def execLoop (g : Bool) (ph : Nibble) (s : State) : Result :=
  guarded g ph s (.next { s with upc := 0 })

end Sys2Proof.Machine
end

