-- ==== Sys2Proof/Machine/Dispatch.lean ====
section
/-! DEFINITION. One arm for each instruction. -/

namespace Sys2Proof.Machine

def exec (i : Instr) (s : State) : Host.Outcome State Fault Refusal :=
  match i with
  | .smpBegin g ph => Sys2Proof.Machine.execSmpBegin g ph s
  | .tickWait g ph => Sys2Proof.Machine.execTickWait g ph s
  | .oscTick v g ph => Sys2Proof.Machine.execOscTick v g ph s
  | .portWrite g ph => Sys2Proof.Machine.execPortWrite g ph s
  | .globalRead g ph => Sys2Proof.Machine.execGlobalRead g ph s
  | .map v g ph => Sys2Proof.Machine.execMap v g ph s
  | .oscSet v g ph => Sys2Proof.Machine.execOscSet v g ph s
  | .smpComplete g ph => Sys2Proof.Machine.execSmpComplete g ph s
  | .cntInc g ph => Sys2Proof.Machine.execCntInc g ph s
  | .loop g ph => Sys2Proof.Machine.execLoop g ph s

end Sys2Proof.Machine
end

