-- ==== Sys2Proof/Machine/Sequencer.lean ====
section
/-! DEFINITION. The sequencer: one attempt of the block to execute a micro-word (30_encoding.md R73, R74), reset and
its release (70_reset_and_hazards.md R230, R231, R234), and one step of the whole machine. -/

namespace Sys2Proof.Machine

/-- The eight slot numbers a configuration gives roles to (20_memory.md R54). -/
def roleSlots (cfg : Params) : List Nat :=
  [cfg.vslotP.v0, cfg.vslotW.v0, cfg.vslotP.v1, cfg.vslotW.v1, cfg.vslotP.v2, cfg.vslotW.v2, cfg.gslotP, cfg.gslotW]

/-- The port bits of the three voices. -/
def voiceBits (cfg : Params) : List (Fin 8) := [cfg.voiceBit.v0, cfg.voiceBit.v1, cfg.voiceBit.v2]

/-- The constraints of 00_scope.md R10. `VOICE_BIT(v) < 8` and `TC_BITS >= 4` hold by the types. -/
def paramsLegal (cfg : Params) : Bool :=
  decide (8 ≤ cfg.nCh) && decide (cfg.nCh ≤ 16)
    && (roleSlots cfg).all (fun i => decide (i < cfg.nCh)) && decide (roleSlots cfg).Nodup
    && decide (voiceBits cfg).Nodup
    && decide (256 ≤ cfg.table.length) && decide (cfg.table.length ≤ 65536)

/-- One attempt of the block (30_encoding.md R73, R74): halted, it takes no step (60_exceptions.md R204); an illegal word
raises `ILLEGAL` before its guard is looked at (30_encoding.md R78); any other word is executed. -/
def blockStep (s : State) : Result :=
  if s.fault.cause ≠ .none then .next s
  else
    match decode (fetch s) with
    | .error _ => .next (raiseFault .illegal (fetch s) s)
    | .ok i => exec i s

/-- Release of reset, before any micro-word: the one `TimerStart` (70_reset_and_hazards.md R231). -/
def releaseReset (s : State) : State := { timerStart s.cfg.tickPeriod s with rst := false }

/-- A move of the environment while reset is held: the block, the ADC and the timer take no step
(70_reset_and_hazards.md R230). The host holds it, supplies parameters and micro-program (R234), or releases it (R231);
a configuration that 00_scope.md R10 forbids is refused then. -/
def heldStep (e : EnvMove) (s : State) : Result :=
  match e.host with
  | .reset => .next s
  | .supply cfg rom => .next (State.atReset cfg rom s.inputs s.moment)
  | .idle => if paramsLegal s.cfg then .next (agentsMove e (releaseReset s)) else .refused .illegalConfiguration

/-- One step of the machine: one attempt of the block and then one move of the environment; while reset is held, a move
of the environment alone (log 1). -/
def machineStep (s : State) : Result :=
  if s.rst then heldStep (nextMove s) (consumeMove s) else mapNext environment (blockStep s)

/-- The state in which the next step fetches this word: its word of `SEQ_ROM` is replaced, and, where a fetch needs it,
reset is released and the block not halted (log 3). -/
def placeWord (s : State) (w : Word) : State :=
  let r := if s.rst then releaseReset s else s
  { r with
    rom := r.rom.set r.upc.toNat w r.upc.isLt
    fault := if r.fault.cause = .none then r.fault else { cause := .none, info := 0, upc := 0 } }

end Sys2Proof.Machine
end

