-- ==== Sys2Proof/Safety.lean ====
section
/-! DEFINITION. The words the statements are written in: what holds of every state a run reaches, what holds when the
micro-program is the default one, runs, and what an observer of one voice sees. -/

namespace Sys2Proof.Safety

open Sys2Proof.Machine

/-- The instruction's guard lets it be performed in `s` (30_encoding.md R74). -/
def Performed (i : Instr) (s : State) : Prop := guardPasses i.guardOn i.guardPhase s = true

/-- The block may take a step: reset is not held and no fault is recorded (60_exceptions.md R204). -/
def Running (s : State) : Prop := s.rst = false ∧ s.fault.cause = .none

/-- The pattern of the newest `port_wr` in a list of transactions, newest first. -/
def lastPortWrite : List Transaction → Option Byte
  | [] => none
  | .portWr b :: _ => some b
  | .tmrStart _ :: rest => lastPortWrite rest
  | .tmrClear :: rest => lastPortWrite rest
  | .adcStart _ :: rest => lastPortWrite rest
  | .tblRead _ _ :: rest => lastPortWrite rest

/-- The patterns of the `port_wr` requests in a list of transactions, newest first: the observation of 20_memory.md R57. -/
def portWrites : List Transaction → List Byte
  | [] => []
  | .portWr b :: rest => b :: portWrites rest
  | .tmrStart _ :: rest => portWrites rest
  | .tmrClear :: rest => portWrites rest
  | .adcStart _ :: rest => portWrites rest
  | .tblRead _ _ :: rest => portWrites rest

/-- The arguments of the `tmr_start` requests in a list of transactions. -/
def timerStarts : List Transaction → List Word
  | [] => []
  | .tmrStart n :: rest => n :: timerStarts rest
  | .tmrClear :: rest => timerStarts rest
  | .adcStart _ :: rest => timerStarts rest
  | .portWr _ :: rest => timerStarts rest
  | .tblRead _ _ :: rest => timerStarts rest

/-- What every step keeps, from any state in which it holds; it holds at reset. -/
structure Inv (s : State) : Prop where
  /-- The sample buffer has `N_CH` slots (20_memory.md R51). -/
  storage : Memory.wf s = true
  /-- While reset is held, the state is that of 10_state.md R41 (70_reset_and_hazards.md R230). -/
  held : s.rst = true → ∃ m, s = { State.atReset s.cfg s.rom s.inputs m with moment := s.moment }
  /-- No forbidden configuration runs (00_scope.md R10). -/
  legal : s.rst = false → paramsLegal s.cfg = true
  /-- `CH` is below `N_CH` (10_state.md R25). -/
  channel : s.rst = false → s.ch.toNat < s.cfg.nCh
  /-- A slot not yet written holds its reset value 0 (20_memory.md R53). -/
  stale : ∀ x ∈ s.slots, x.valid = false → x.value = 0
  /-- The mapper's pulse width is at most half its period (41_mapper.md R125). -/
  pulse : 2 * s.mapout.w.toNat ≤ s.mapout.p.toNat
  /-- Only the three voice bits of `OUTACC` are ever 1 (10_state.md R30, 43_scheduler.md R165). -/
  output : ∀ i : Fin 8, i ∉ voiceBits s.cfg → s.outacc.getLsbD i.val = false
  /-- A conversion is not both in flight and complete (42_sampler.md R141, R142). -/
  adc : ¬ (s.adc.busy = true ∧ s.adc.done = true)
  /-- The timer runs from the release of reset on, with `TICK_PERIOD`, started once (70_reset_and_hazards.md R231). -/
  timer : s.rst = false →
    s.tmr.running = true ∧ s.tmr.period = s.cfg.tickPeriod ∧ timerStarts s.events = [s.cfg.tickPeriod]
  /-- The port shows the last pattern written to it, and none before the first (20_memory.md R57, 10_state.md R42). -/
  port : s.port = lastPortWrite s.events
  /-- Every table read was of an entry of the table (20_memory.md R52). -/
  tableReads : ∀ a d, Transaction.tblRead a d ∈ s.events → s.cfg.table[a.toNat]? = some d
  /-- With no fault recorded, FAULT holds its reset value (60_exceptions.md R201). -/
  faultClear : s.fault.cause = .none → s.fault.info = 0 ∧ s.fault.upc = 0
  /-- A recorded fault names the word the sequencer stands at (60_exceptions.md R203). -/
  faultUpc : s.fault.cause ≠ .none → s.fault.upc = s.upc
  /-- An `IDX` fault records an index that is out of range and at most 32767 (60_exceptions.md R201). -/
  faultIndex : s.fault.cause = .idx →
    s.cfg.indexPolicy = .fault ∧ s.cfg.table.length ≤ s.fault.info.toNat ∧ s.fault.info.toNat ≤ 32767

/-- What every step keeps besides, for as long as the micro-program is the default one. -/
structure DefaultRomFacts (s : State) : Prop where
  /-- Only `IDX` can occur, and with `clamp` no fault can (60_exceptions.md R201). -/
  faults : s.fault.cause = .none ∨ (s.fault.cause = .idx ∧ s.cfg.indexPolicy = .fault)
  /-- `GLOBAL_READ` has run before every `MAP` (70_reset_and_hazards.md R242). -/
  globals : 6 < s.upc.toNat → s.glat.valid = true
  /-- `MAP 0` has run before `OSC_SET 0` is performed (70_reset_and_hazards.md R242). -/
  mapped0 : s.upc = 8 → phase s = 4 → s.mapout.valid = true
  /-- `MAP 1` has run before `OSC_SET 1` is performed. -/
  mapped1 : s.upc = 10 → phase s = 8 → s.mapout.valid = true
  /-- `MAP 2` has run before `OSC_SET 2` is performed. -/
  mapped2 : s.upc = 12 → phase s = 12 → s.mapout.valid = true
  /-- This tick's pattern is on the port before any `MAP` or `OSC_SET` of the tick (20_memory.md R64). -/
  frame : 5 < s.upc.toNat → s.port = some s.outacc
  /-- A conversion in flight is on channel `CH` (42_sampler.md R143). -/
  inFlight : s.adc.busy = true → s.adc.ch = s.ch
  /-- Up to `SMP_COMPLETE` there is a conversion of channel `CH`, in flight or complete (42_sampler.md R143). -/
  sample : 0 < s.upc.toNat → s.upc.toNat ≤ 13 → (s.adc.busy = true ∨ s.adc.done = true) ∧ s.adc.ch = s.ch

/-- The default-ROM facts hold wherever the micro-program is the default one. -/
def RomInv (s : State) : Prop := s.rom = Config.defaultRom → DefaultRomFacts s

/-- No move of the list applies reset. -/
def NoReset (es : List EnvMove) : Prop := ∀ e ∈ es, e.host ≠ .reset

/-- `TMR_FAIR` (60_exceptions.md R207) of a sequence of moves: the timer elapses again and again. -/
def TmrFair (moves : Nat → EnvMove) : Prop := ∀ n, ∃ m, n ≤ m ∧ (moves m).timerElapses = true

/-- `ADC_FAIR` (60_exceptions.md R207) of a sequence of moves: the ADC completes again and again. -/
def AdcFair (moves : Nat → EnvMove) : Prop := ∀ n, ∃ m, n ≤ m ∧ (moves m).adcCompletes ≠ none

/-- An instruction executed `n` times, with nothing between. -/
def execTimes (i : Instr) : Nat → State → Result
  | 0, s => .next s
  | n + 1, s =>
    match exec i s with
    | .next t => execTimes i n t
    | .fault r => .fault r
    | .refused r => .refused r

/-- What an observer of voice `v` sees over `n` executions of `OSC_TICK v`: after each, the countdown and the bit of the
output accumulator. -/
def voiceTrace (v : Voice) : Nat → State → List (Word × Bool)
  | 0, _ => []
  | n + 1, s =>
    match exec (.oscTick v false 0) s with
    | .next t => ((oscOf t v).c, t.outacc.getLsbD (voiceBit s v).val) :: voiceTrace v n t
    | .fault _ => []
    | .refused _ => []

/-- The countdowns of 40_oscillator.md R106: `c - 1, ..., 1, p, p - 1, ..., c`, for `1 ≤ c ≤ p`. -/
def countdownCycle (p c : Nat) : List Nat :=
  (List.range (c - 1)).map (fun k => c - 1 - k) ++ (List.range (p - c + 1)).map (fun k => p - k)

/-- The words of a micro-program that are performed at a phase, in order, by their place (30_encoding.md R74). -/
def performedAt (rom : Rom) (p : Nibble) : List Instr :=
  rom.toList.filterMap (fun w =>
    match decode w with
    | .ok i => if !i.guardOn || i.guardPhase == p then some i else none
    | .error _ => none)

/-- A voice's registers after one `OSC_TICK` in the words of 40_oscillator.md R100, on numbers. -/
def oscAfterTick (o : Osc) : Osc :=
  { o with c := if o.c.toNat = 1 then o.p else BitVec.ofNat 16 (o.c.toNat + 65535) }

/-- All three voices' registers after each has had its `OSC_TICK`. -/
def oscsAfterTick (t : PerVoice Osc) : PerVoice Osc where
  v0 := oscAfterTick t.v0
  v1 := oscAfterTick t.v1
  v2 := oscAfterTick t.v2

/-- `MAP_PHASE(v)` (00_scope.md R9). -/
def mapPhase : Voice → Nibble
  | .v0 => 4
  | .v1 => 8
  | .v2 => 12

/-- Where `MAP v` stands in the default micro-program (43_scheduler.md R161). -/
def mapPlace : Voice → Nibble
  | .v0 => 7
  | .v1 => 9
  | .v2 => 11

/-- `b` is the pattern of a tick that left the voices' registers `o`: each voice's bit is 1 exactly when its countdown is
below its pulse width, and every other bit is 0 (43_scheduler.md R165). -/
def PatternOf (cfg : Params) (o : PerVoice Osc) (b : Byte) : Prop :=
  (∀ v, b.getLsbD (PerVoice.get cfg.voiceBit v).val = decide ((PerVoice.get o v).c.toNat < (PerVoice.get o v).w.toNat))
    ∧ ∀ i : Fin 8, i ∉ voiceBits cfg → b.getLsbD i.val = false

/-- The word of an instruction is `base`, with the guard's bits added: `g000 pppp` (30_encoding.md R70). -/
def EncodedAs (i : Instr) (base : Nat) : Prop :=
  (encode i).toNat = base + (if i.guardOn then 128 else 0) + i.guardPhase.toNat

/-- The number a voice has (00_scope.md R3). -/
def voiceNumber : Voice → Nat
  | .v0 => 0
  | .v1 => 1
  | .v2 => 2

/-- The constraints of 00_scope.md R10, as the rule states them. -/
def AllowedByR10 (cfg : Params) : Prop :=
  8 ≤ cfg.nCh ∧ cfg.nCh ≤ 16
    ∧ (∀ i ∈ roleSlots cfg, i < cfg.nCh) ∧ (roleSlots cfg).Nodup
    ∧ (voiceBits cfg).Nodup ∧ (∀ b ∈ voiceBits cfg, b.val < 8)
    ∧ 256 ≤ cfg.table.length ∧ cfg.table.length ≤ 65536

/-- The state with every `VALID` flag forgotten. -/
def forgetValid (s : State) : State := { s with slots := s.slots.map (fun x => { x with valid := false }) }

/-- Bits 3:0 of a tick counter (10_state.md R27). -/
def phaseOf (tc : Byte) : Nat := tc.toNat % 16

end Sys2Proof.Safety
end

