-- ==== Sys2Proof/Certificates/Slice0/Obligations.lean ====
section
/-! DEFINITION. The statements for the provers. Each docstring names the rule of spec/ it formalises, or says what it
rests on. The words they use are those of Sys2Proof/Safety.lean and of the model. -/

open Sys2Proof
open Sys2Proof.Machine
open Sys2Proof.Safety

/-! ### The encoding -/

/-- Words written out from 30_encoding.md R70, R72, R80 and 95_test_vectors.md 2.1, and what they decode to. -/
def Obligations.SpecWordsDecodeAsListed : Prop :=
  decode 0x1000 = .ok (.smpBegin false 0) ∧ decode 0x1080 = .ok (.smpBegin true 0)
    ∧ decode 0x2000 = .ok (.tickWait false 0) ∧ decode 0x3200 = .ok (.oscTick .v2 false 0)
    ∧ decode 0x4000 = .ok (.portWrite false 0) ∧ decode 0x5000 = .ok (.globalRead false 0)
    ∧ decode 0x6084 = .ok (.map .v0 true 4) ∧ decode 0x728C = .ok (.oscSet .v2 true 12)
    ∧ decode 0x8080 = .ok (.smpComplete true 0) ∧ decode 0x9000 = .ok (.cntInc false 0)
    ∧ decode 0xA083 = .ok (.loop true 3)
    ∧ decode 0x0000 = .error .reservedOperation ∧ decode 0xB000 = .error .reservedOperation
    ∧ decode 0x3300 = .error .noSuchVoice ∧ decode 0x4100 = .error .operandNotZero
    ∧ decode 0x1001 = .error .phaseWithoutGuard ∧ decode 0x1010 = .error .reservedBits

/-- 30_encoding.md R76, whole: which words are legal, in the arithmetic of the fields' places. -/
def Obligations.DecodeAcceptsExactlyTheLegalWords : Prop :=
  ∀ w : Word, (∃ i, decode w = .ok i) ↔
    (1 ≤ w.toNat / 4096 ∧ w.toNat / 4096 ≤ 10) ∧ w.toNat / 16 % 8 = 0
      ∧ (w.toNat / 128 % 2 = 0 → w.toNat % 16 = 0)
      ∧ (if w.toNat / 4096 = 3 ∨ w.toNat / 4096 = 6 ∨ w.toNat / 4096 = 7 then w.toNat / 256 % 16 ≤ 2
         else w.toNat / 256 % 16 = 0)

/-- 30_encoding.md R77: the legal words are 272, no more and no fewer. -/
def Obligations.LegalWordsAre272 : Prop :=
  ∃ l : List Word, l.Nodup ∧ l.length = 272 ∧ ∀ w : Word, w ∈ l ↔ ∃ i, decode w = .ok i

/-- Decode and encode agree on every well-formed instruction (30_encoding.md R70, R72). -/
def Obligations.DecodeOfEncodeIsTheInstruction : Prop :=
  ∀ i : Instr, i.wellFormed = true → decode (encode i) = .ok i

/-- Every legal word has one reading: it is the word of the well-formed instruction it decodes to (30_encoding.md R79). -/
def Obligations.EncodeOfDecodeIsTheWord : Prop :=
  ∀ (w : Word) (i : Instr), decode w = .ok i → i.wellFormed = true ∧ encode i = w

/-! ### A step and its instruction -/

/-- A step runs the decoded instruction, and then the environment makes its move (30_encoding.md R73, R74). -/
def Obligations.StepRunsTheDecodedInstruction : Prop :=
  ∀ (s : State) (i : Instr), Running s → decode (s.rom[s.upc.toNat]'s.upc.isLt) = .ok i →
    step s = mapNext environment (exec i s) ∧ i.wellFormed = true

/-- The word that `withFetchWord` places is the word the next step runs, whatever the state was (30_encoding.md R73; the
model's own interface, log 3). -/
def Obligations.StepRunsThePlacedWord : Prop :=
  ∀ (s : State) (w : Nat) (i : Instr), w < 65536 → decode (BitVec.ofNat 16 w) = .ok i →
    step (s.withFetchWord 16 w) = mapNext environment (exec i (s.withFetchWord 16 w))

/-- 30_encoding.md R78 and 60_exceptions.md R206: an illegal word raises ILLEGAL with the word, whatever its guard, and the
default ROM holds only legal words. -/
def Obligations.IllegalWordRaisesIllegal : Prop :=
  (∀ (s : State) (e : DecodeError), Running s → decode (fetch s) = .error e →
    step s = .next (environment { s with fault := { cause := .illegal, info := fetch s, upc := s.upc } }))
  ∧ (∃ e, decode 0x0000 = .error e)
  ∧ ∀ k : Fin 16, ∃ i, decode (Config.defaultRom[k.val]'k.isLt) = .ok i

/-- 30_encoding.md R74: a word whose guard does not match is skipped, changing nothing but `upc`; a word is performed when
its guard is off or matches. -/
def Obligations.GuardSkipsEveryInstruction : Prop :=
  ∀ (i : Instr) (s : State),
    (Performed i s ↔ (i.guardOn = false ∨ i.guardPhase.toNat = phaseOf s.tc))
      ∧ (¬ Performed i s → exec i s = .next { s with upc := s.upc + 1 })

/-- 10_state.md R31 and 43_scheduler.md R175: what an instruction does to `upc`. -/
def Obligations.UpcAdvancesLoopsOrHolds : Prop :=
  ∀ (i : Instr) (s t : State), exec i s = .next t →
    t.upc.toNat = (s.upc.toNat + 1) % 16
      ∨ (t.upc = 0 ∧ ∃ g ph, i = .loop g ph)
      ∨ (t = s ∧ ((∃ g ph, i = .tickWait g ph ∧ s.tmr.elapsed = false)
          ∨ (∃ g ph, i = .smpComplete g ph ∧ s.adc.done = false)))
      ∨ (t.upc = s.upc ∧ t.fault.cause ≠ .none ∧ t.fault.upc = s.upc)

/-! ### The ten instructions, when performed -/

/-- 42_sampler.md R140: the request on channel `CH`, or none where starts are gated and a conversion is in flight. -/
def Obligations.SmpBeginStartsConversionOnCurrentChannel : Prop :=
  (∀ (g : Bool) (ph : Nibble) (s : State), Performed (.smpBegin g ph) s →
    exec (.smpBegin g ph) s = .next
      (if s.cfg.adcStartGated = true ∧ s.adc.busy = true then { s with upc := s.upc + 1 }
       else { s with
         upc := s.upc + 1
         adc := { busy := true, done := false, ch := s.ch, result := s.adc.result }
         events := .adcStart s.ch :: s.events }))
  ∧ (∀ g ph, EncodedAs (.smpBegin g ph) 0x1000) ∧ Config.defaultRom[0] = 0x1000

/-- 43_scheduler.md R166: the flag is read and cleared in one step; while it is 0 the word holds. -/
def Obligations.TickWaitClearsTheFlagOrHolds : Prop :=
  (∀ (g : Bool) (ph : Nibble) (s : State), Performed (.tickWait g ph) s →
    (s.tmr.elapsed = true → exec (.tickWait g ph) s = .next { s with
        upc := s.upc + 1
        tmr := { elapsed := false, running := s.tmr.running, period := s.tmr.period }
        events := .tmrClear :: s.events })
    ∧ (s.tmr.elapsed = false → exec (.tickWait g ph) s = .next s))
  ∧ (∀ g ph, EncodedAs (.tickWait g ph) 0x2000) ∧ Config.defaultRom[1] = 0x2000

/-- 40_oscillator.md R100: the countdown, the reload, and the level in the voice's bit of `OUTACC`; all else is kept. -/
def Obligations.OscTickCountsDownAndSetsItsBit : Prop :=
  (∀ (v : Voice) (g : Bool) (ph : Nibble) (s : State), Performed (.oscTick v g ph) s →
    ∃ t, exec (.oscTick v g ph) s = .next t
      ∧ t = { s with osc := t.osc, outacc := t.outacc, upc := s.upc + 1 }
      ∧ oscOf t v = oscAfterTick (oscOf s v)
      ∧ (∀ u, u ≠ v → oscOf t u = oscOf s u)
      ∧ ∀ i : Fin 8, t.outacc.getLsbD i.val =
          if i = voiceBit s v then decide ((oscOf t v).c.toNat < (oscOf s v).w.toNat) else s.outacc.getLsbD i.val)
  ∧ (∀ v g ph, EncodedAs (.oscTick v g ph) (0x3000 + 256 * voiceNumber v))
  ∧ encode (.oscTick .v0 false 0) = 0x3000 ∧ encode (.oscTick .v1 false 0) = 0x3100
  ∧ encode (.oscTick .v2 false 0) = 0x3200

/-- 40_oscillator.md R110: period and pulse width from `MAPOUT`, the countdown kept; LATCH with the word when it is
invalid. -/
def Obligations.OscSetAppliesTheMapperResult : Prop :=
  (∀ (v : Voice) (g : Bool) (ph : Nibble) (s : State), Performed (.oscSet v g ph) s →
    (s.mapout.valid = false → exec (.oscSet v g ph) s =
      .next { s with fault := { cause := .latch, info := encode (.oscSet v g ph), upc := s.upc } })
    ∧ (s.mapout.valid = true → ∃ t, exec (.oscSet v g ph) s = .next t
      ∧ t = { s with osc := t.osc, upc := s.upc + 1 }
      ∧ oscOf t v = { p := s.mapout.p, w := s.mapout.w, c := (oscOf s v).c }
      ∧ ∀ u, u ≠ v → oscOf t u = oscOf s u))
  ∧ (∀ v g ph, EncodedAs (.oscSet v g ph) (0x7000 + 256 * voiceNumber v))
  ∧ Config.defaultRom[8] = 0x7084 ∧ Config.defaultRom[10] = 0x7188 ∧ Config.defaultRom[12] = 0x728C

/-- 41_mapper.md R120: the global pair into `GLAT`. With a configuration that R10 allows both slots exist; where one does
not, the model stops under the name of log 10. -/
def Obligations.GlobalReadLatchesTheGlobalPair : Prop :=
  (∀ (g : Bool) (ph : Nibble) (s : State), Performed (.globalRead g ph) s →
    (∀ gp gw, readSlot s s.cfg.gslotP = some gp → readSlot s s.cfg.gslotW = some gw →
      exec (.globalRead g ph) s = .next { s with upc := s.upc + 1, glat := { gp := gp, gw := gw, valid := true } })
    ∧ ((readSlot s s.cfg.gslotP = none ∨ readSlot s s.cfg.gslotW = none) →
      ∃ i, exec (.globalRead g ph) s = .fault (.noSuchSlot i) ∧ s.slots.length ≤ i))
  ∧ (∀ g ph, EncodedAs (.globalRead g ph) 0x5000) ∧ Config.defaultRom[6] = 0x5000
  ∧ Config.params.gslotP = 6 ∧ Config.params.gslotW = 7

/-- 41_mapper.md R122: the checks in their order, the index, the table, the divisor and the two results. -/
def Obligations.MapComputesPeriodAndPulseWidth : Prop :=
  (∀ (v : Voice) (g : Bool) (ph : Nibble) (s : State), Performed (.map v g ph) s →
    (s.glat.valid = false → exec (.map v g ph) s =
      .next { s with fault := { cause := .latch, info := encode (.map v g ph), upc := s.upc } })
    ∧ (s.glat.valid = true → ∀ vp vw index,
        readSlot s (voiceSlotP s v) = some vp → readSlot s (voiceSlotW s v) = some vw →
        index = (vp.toNat + s.glat.gp.toNat) / 4 →
        (s.cfg.table.length ≤ index → s.cfg.indexPolicy = .fault → exec (.map v g ph) s =
          .next { s with fault := { cause := .idx, info := BitVec.ofNat 16 index, upc := s.upc } })
        ∧ (∀ at' period, (index < s.cfg.table.length ∧ at' = index
              ∨ s.cfg.table.length ≤ index ∧ s.cfg.indexPolicy = .clamp ∧ at' = s.cfg.table.length - 1) →
            s.cfg.table[at']? = some period →
            ∃ t, exec (.map v g ph) s = .next t
              ∧ t = { s with upc := s.upc + 1, mapout := t.mapout, events := t.events }
              ∧ t.mapout.valid = true ∧ t.mapout.p = period
              ∧ t.mapout.w.toNat =
                  period.toNat * 8 / (15 + (1 + vw.toNat / 16) * (1 + s.glat.gw.toNat / 16))
              ∧ t.events = .tblRead (BitVec.ofNat 16 at') period :: s.events)))
  ∧ (∀ v g ph, EncodedAs (.map v g ph) (0x6000 + 256 * voiceNumber v))
  ∧ Config.defaultRom[7] = 0x6084 ∧ Config.defaultRom[9] = 0x6188 ∧ Config.defaultRom[11] = 0x628C
  ∧ ∀ v, PerVoice.get Config.params.vslotP v = 2 * voiceNumber v ∧ PerVoice.get Config.params.vslotW v = 2 * voiceNumber v + 1

/-- 42_sampler.md R145: the slot of `CH` and its flag, and the channel moving on; while `ADC.done = 0` the word holds. -/
def Obligations.SmpCompleteStoresTheReadingOrHolds : Prop :=
  (∀ (g : Bool) (ph : Nibble) (s : State), Performed (.smpComplete g ph) s →
    (s.adc.done = false → exec (.smpComplete g ph) s = .next s)
    ∧ (s.adc.done = true → s.ch.toNat < s.slots.length → 0 < s.cfg.nCh → s.cfg.nCh ≤ 16 →
      ∃ t, exec (.smpComplete g ph) s = .next t
        ∧ t = { s with upc := s.upc + 1, slots := t.slots, ch := t.ch }
        ∧ t.ch.toNat = (s.ch.toNat + 1) % s.cfg.nCh
        ∧ t.slots[s.ch.toNat]? = some { value := s.adc.result, valid := true }
        ∧ t.slots.length = s.slots.length
        ∧ ∀ j, j ≠ s.ch.toNat → t.slots[j]? = s.slots[j]?))
  ∧ (∀ g ph, EncodedAs (.smpComplete g ph) 0x8000) ∧ Config.defaultRom[13] = 0x8080

/-- The stops of `MAP` and `SMP_COMPLETE`: a slot or a table entry that does not exist is not read as a number and not
written. The model's choice (log 10); no configuration that 00_scope.md R10 allows reaches them. -/
def Obligations.MissingSlotsAndEntriesStopByName : Prop :=
  (∀ (v : Voice) (g : Bool) (ph : Nibble) (s : State), Performed (.map v g ph) s → s.glat.valid = true →
    ((readSlot s (voiceSlotP s v) = none ∨ readSlot s (voiceSlotW s v) = none) →
      ∃ i, exec (.map v g ph) s = .fault (.noSuchSlot i) ∧ s.slots.length ≤ i)
    ∧ (readSlot s (voiceSlotP s v) ≠ none → readSlot s (voiceSlotW s v) ≠ none →
        s.cfg.table = [] → s.cfg.indexPolicy = .clamp → exec (.map v g ph) s = .fault (.noSuchTableEntry 0)))
  ∧ (∀ (g : Bool) (ph : Nibble) (s : State), Performed (.smpComplete g ph) s → s.adc.done = true →
      s.slots.length ≤ s.ch.toNat → exec (.smpComplete g ph) s = .fault (.noSuchSlot s.ch.toNat))

/-- 43_scheduler.md R170: one write of `OUTACC` to the port. -/
def Obligations.PortWriteShowsTheAccumulator : Prop :=
  (∀ (g : Bool) (ph : Nibble) (s : State), Performed (.portWrite g ph) s →
    exec (.portWrite g ph) s =
      .next { s with upc := s.upc + 1, port := some s.outacc, events := .portWr s.outacc :: s.events })
  ∧ (∀ g ph, EncodedAs (.portWrite g ph) 0x4000) ∧ Config.defaultRom[5] = 0x4000

/-- 43_scheduler.md R172 and R173: the tick counter modulo 256, and the phase modulo 16. -/
def Obligations.CntIncAdvancesTheTickCounter : Prop :=
  (∀ (g : Bool) (ph : Nibble) (s : State), Performed (.cntInc g ph) s →
    ∃ t, exec (.cntInc g ph) s = .next t
      ∧ t = { s with upc := s.upc + 1, tc := t.tc }
      ∧ t.tc.toNat = (s.tc.toNat + 1) % 256
      ∧ (phase t).toNat = ((phase s).toNat + 1) % 16)
  ∧ (∀ g ph, EncodedAs (.cntInc g ph) 0x9000) ∧ Config.defaultRom[14] = 0x9000

/-- 43_scheduler.md R174: back to the start of the micro-program. -/
def Obligations.LoopReturnsToTheStart : Prop :=
  (∀ (g : Bool) (ph : Nibble) (s : State), Performed (.loop g ph) s → exec (.loop g ph) s = .next { s with upc := 0 })
  ∧ (∀ g ph, EncodedAs (.loop g ph) 0xA000) ∧ Config.defaultRom[15] = 0xA000

/-! ### Who writes what -/

/-- The writers of every register, over all ten instructions: 10_state.md R21, R23, R25, R26, R28, R29, R30, R35, R36,
R37 and 20_memory.md R66. -/
def Obligations.EachRegisterHasItsOneWriter : Prop :=
  ∀ (i : Instr) (s t : State), exec i s = .next t →
    (∀ v, (oscOf t v).c ≠ (oscOf s v).c → ∃ g ph, i = .oscTick v g ph)
    ∧ (∀ v, ((oscOf t v).p ≠ (oscOf s v).p ∨ (oscOf t v).w ≠ (oscOf s v).w) → ∃ g ph, i = .oscSet v g ph)
    ∧ ((t.slots ≠ s.slots ∨ t.ch ≠ s.ch) → ∃ g ph, i = .smpComplete g ph)
    ∧ (t.tc ≠ s.tc → ∃ g ph, i = .cntInc g ph)
    ∧ (t.glat ≠ s.glat → ∃ g ph, i = .globalRead g ph)
    ∧ (t.mapout ≠ s.mapout → ∃ v g ph, i = .map v g ph)
    ∧ (t.outacc ≠ s.outacc → ∃ v g ph, i = .oscTick v g ph)
    ∧ (t.port ≠ s.port → ∃ g ph, i = .portWrite g ph)
    ∧ (t.adc ≠ s.adc → ∃ g ph, i = .smpBegin g ph)
    ∧ (t.tmr ≠ s.tmr → ∃ g ph, i = .tickWait g ph)
    ∧ (t.fault ≠ s.fault → ∃ v g ph, i = .map v g ph ∨ i = .oscSet v g ph)
    ∧ t.rom = s.rom ∧ t.cfg = s.cfg ∧ t.rst = s.rst ∧ t.inputs = s.inputs ∧ t.moment = s.moment

/-- 10_state.md R21: an instruction of another voice, or of no voice, neither reads nor writes voice `u`'s registers. -/
def Obligations.VoicesDoNotInterfere : Prop :=
  ∀ (u : Voice) (i : Instr) (s : State) (o : Osc),
    (∀ g ph, i ≠ .oscTick u g ph ∧ i ≠ .oscSet u g ph) →
    exec i { s with osc := PerVoice.set s.osc u o } =
      mapNext (fun t => { t with osc := PerVoice.set t.osc u o }) (exec i s)

/-- 10_state.md R24: `VALID` changes nothing the block computes. -/
def Obligations.ValidFlagsAreNeverRead : Prop :=
  ∀ (i : Instr) (s : State),
    mapNext forgetValid (exec i (forgetValid s)) = mapNext forgetValid (exec i s)

/-! ### Faults, halting, holding -/

/-- 60_exceptions.md R201 and R203: an attempt of the block that records a fault writes FAULT and nothing else, and what
it records. -/
def Obligations.FaultEntryWritesOnlyFault : Prop :=
  ∀ s t : State, blockStep s = .next t → t.fault ≠ s.fault →
    t = { s with fault := { cause := t.fault.cause, info := t.fault.info, upc := s.upc } }
      ∧ (t.fault.cause = .illegal ∧ t.fault.info = fetch s ∧ (∃ e, decode (fetch s) = .error e)
        ∨ t.fault.cause = .latch ∧ t.fault.info = fetch s ∧ (s.glat.valid = false ∨ s.mapout.valid = false)
        ∨ t.fault.cause = .idx ∧ s.cfg.indexPolicy = .fault ∧ s.glat.valid = true
            ∧ s.cfg.table.length ≤ t.fault.info.toNat ∧ t.fault.info.toNat ≤ 32767)

/-- 60_exceptions.md R204 and 10_state.md R32: a halted block takes no step, whatever the timer and the ADC do, for as long
as the host applies no reset; the record of the fault stays. -/
def Obligations.FaultIsStickyUntilReset : Prop :=
  ∀ (es rest : List EnvMove) (s : State), s.rst = false → s.fault.cause ≠ .none →
    s.inputs = es ++ rest → NoReset es →
    ∃ t, core.run es.length s = .next t
      ∧ t = { s with adc := t.adc, tmr := t.tmr, inputs := rest, moment := s.moment + es.length }
      ∧ faultOut t = true

/-- 60_exceptions.md R204: only reset leaves the halted state. -/
def Obligations.OnlyResetLeavesTheHaltedState : Prop :=
  ∀ s t : State, s.rst = false → s.fault.cause ≠ .none → step s = .next t → t.fault ≠ s.fault →
    (nextMove s).host = .reset ∧ t.rst = true ∧ t.fault.cause = .none

/-- 60_exceptions.md R207: while the timer does not elapse, `TICK_WAIT` holds for any number of steps, and no fault is
recorded. -/
def Obligations.StuckTimerHoldsTheBlock : Prop :=
  ∀ (es rest : List EnvMove) (s : State) (g : Bool) (ph : Nibble), Running s →
    decode (fetch s) = .ok (.tickWait g ph) → Performed (.tickWait g ph) s → s.tmr.elapsed = false →
    s.inputs = es ++ rest → NoReset es → (∀ e ∈ es, e.timerElapses = false) →
    ∃ t, core.run es.length s = .next t
      ∧ t = { s with adc := t.adc, inputs := rest, moment := s.moment + es.length }

/-- 60_exceptions.md R207 and 42_sampler.md R147: while the ADC does not complete, `SMP_COMPLETE` holds for any number of
steps, and no fault is recorded. -/
def Obligations.StuckAdcHoldsTheBlock : Prop :=
  ∀ (es rest : List EnvMove) (s : State) (g : Bool) (ph : Nibble), Running s →
    decode (fetch s) = .ok (.smpComplete g ph) → Performed (.smpComplete g ph) s → s.adc.done = false →
    s.inputs = es ++ rest → NoReset es → (∀ e ∈ es, e.adcCompletes = none) →
    ∃ t, core.run es.length s = .next t
      ∧ t = { s with tmr := t.tmr, inputs := rest, moment := s.moment + es.length }

/-- 43_scheduler.md R166, R167: however long it has held, `TICK_WAIT` completes in the step after the running timer
elapses. -/
def Obligations.TickWaitEndsWhenTheTimerElapses : Prop :=
  ∀ (es rest : List EnvMove) (e f : EnvMove) (s : State) (g : Bool) (ph : Nibble), Running s →
    decode (fetch s) = .ok (.tickWait g ph) → Performed (.tickWait g ph) s →
    s.tmr.elapsed = false → s.tmr.running = true →
    s.inputs = es ++ e :: f :: rest → NoReset (es ++ [e, f]) →
    (∀ x ∈ es, x.timerElapses = false) → e.timerElapses = true → f.timerElapses = false →
    ∃ t, core.run (es.length + 2) s = .next t
      ∧ t.upc = s.upc + 1 ∧ t.tmr.elapsed = false ∧ t.events = .tmrClear :: s.events ∧ t.inputs = rest
      ∧ t.fault = s.fault ∧ t.osc = s.osc ∧ t.slots = s.slots ∧ t.tc = s.tc

/-! ### Reset, its release, the agents -/

/-- 70_reset_and_hazards.md R230 with 10_state.md R41: reset applied in any state (running, holding or halted) gives the
values of R41; the parameters and the micro-program stay. -/
def Obligations.ResetGivesTheResetValues : Prop :=
  ∀ s : State, Inv s → s.rst = false → (nextMove s).host = .reset →
    ∃ t, step s = .next t
      ∧ t.osc = { v0 := { p := s.cfg.initPeriod.v0, w := s.cfg.initPulse.v0, c := s.cfg.initCountdown.v0 }
                  v1 := { p := s.cfg.initPeriod.v1, w := s.cfg.initPulse.v1, c := s.cfg.initCountdown.v1 }
                  v2 := { p := s.cfg.initPeriod.v2, w := s.cfg.initPulse.v2, c := s.cfg.initCountdown.v2 } }
      ∧ (∀ j, j < s.cfg.nCh → t.slots[j]? = some { value := 0, valid := false }) ∧ t.slots.length = s.cfg.nCh
      ∧ t.ch = 0 ∧ t.tc = 0 ∧ t.glat = { gp := 0, gw := 0, valid := false }
      ∧ t.mapout = { p := 0, w := 0, valid := false } ∧ t.outacc = 0
      ∧ t.fault = { cause := .none, info := 0, upc := 0 } ∧ t.upc = 0
      ∧ t.adc.busy = false ∧ t.adc.done = false ∧ t.adc.ch = 0 ∧ t.tmr.elapsed = false ∧ t.port = none
      ∧ t.cfg = s.cfg ∧ t.rom = s.rom ∧ t.rst = true

/-- 70_reset_and_hazards.md R230 and R234: while reset is held nothing steps, and the host may supply parameters and
micro-program. -/
def Obligations.HeldResetTakesNoStep : Prop :=
  ∀ s : State, s.rst = true →
    ((nextMove s).host = .reset → step s = .next { s with inputs := s.inputs.tail, moment := s.moment + 1 })
    ∧ (∀ cfg rom, (nextMove s).host = .supply cfg rom →
        step s = .next (State.atReset cfg rom s.inputs.tail (s.moment + 1)))

/-- 70_reset_and_hazards.md R231 and 00_scope.md R10: on release the timer is started once with `TICK_PERIOD` and the
sequencer stands at word 0; a configuration that R10 forbids is refused. The timer may elapse in the same machine step,
after its start (log 1). -/
def Obligations.ReleaseStartsTheTimerAndTheSequencer : Prop :=
  ∀ s : State, Inv s → s.rst = true → (nextMove s).host = .idle →
    (AllowedByR10 s.cfg → ∃ t, step s = .next t ∧ Running t ∧ t.upc = 0
      ∧ t.tmr = { elapsed := (nextMove s).timerElapses, running := true, period := s.cfg.tickPeriod }
      ∧ t.events = [.tmrStart s.cfg.tickPeriod]
      ∧ t = { s with tmr := t.tmr, events := t.events, rst := false, inputs := s.inputs.tail, moment := s.moment + 1 })
    ∧ (¬ AllowedByR10 s.cfg → step s = .refused .illegalConfiguration)

/-- 42_sampler.md R142, 43_scheduler.md R167, 60_exceptions.md R209: what the timer and the ADC do between two steps of the
block, and that their order does not matter. -/
def Obligations.AgentsMoveIndependently : Prop :=
  ∀ (b : Bool) (r : Option Word) (s : State),
    adcMove r (timerMove b s) = timerMove b (adcMove r s)
    ∧ timerMove b s = { s with tmr := { s.tmr with elapsed := s.tmr.elapsed || (b && s.tmr.running) } }
    ∧ (s.adc.busy = false → adcMove r s = s)
    ∧ (s.adc.busy = true → ∀ x, r = some x →
        adcMove r s = { s with adc := { busy := false, done := true, ch := s.adc.ch, result := x } })

/-! ### Invariants -/

/-- The invariant holds at reset (10_state.md R41, 20_memory.md R51). -/
def Obligations.InvariantHoldsAtReset : Prop := Inv State.reset ∧ RomInv State.reset

/-- Every step keeps the invariant: the storage keeps its form, `CH` stays below `N_CH`, stale slots read 0, only the
voice bits of `OUTACC` are ever 1, the mapper's pulse width stays at most half its period, the port shows its last write,
every table read is in range, the timer is started once, FAULT stays as R201 has it, and a held reset is R41's state. -/
def Obligations.EveryStepKeepsTheInvariant : Prop :=
  ∀ s t : State, Inv s → step s = .next t → Inv t

/-- With the default micro-program, every step keeps: only IDX can be recorded, and under `clamp` no fault
(60_exceptions.md R201); the latches are written before they are read (70_reset_and_hazards.md R242); the tick's pattern
is on the port before any retune (20_memory.md R64); the conversion to be stored is of channel `CH` (42_sampler.md
R143). -/
def Obligations.DefaultRomKeepsItsProperties : Prop :=
  ∀ s t : State, Inv s → RomInv s → step s = .next t → RomInv t

/-- From a state with the invariant no step stops the machine but one: the release of reset under a configuration that
00_scope.md R10 forbids. -/
def Obligations.NoStepStopsTheMachine : Prop :=
  ∀ s : State, Inv s →
    (∃ t, step s = .next t)
      ∨ (step s = .refused .illegalConfiguration ∧ s.rst = true ∧ ¬ AllowedByR10 s.cfg)

/-- The same along any run from reset: after any number of steps the invariant and the default-ROM facts hold, unless the
run was refused at a release of reset. -/
def Obligations.EveryRunFromResetKeepsTheInvariant : Prop :=
  ∀ k : Nat, (∃ t, core.run k State.reset = .next t ∧ Inv t ∧ RomInv t)
    ∨ core.run k State.reset = .refused .illegalConfiguration

/-! ### Waveforms -/

/-- 40_oscillator.md R106: with `1 ≤ C ≤ P`, `P` ticks take the countdown through `C-1, ..., 1, P, ..., C` and back. -/
def Obligations.CountdownIsPeriodic : Prop :=
  ∀ (v : Voice) (s : State), 1 ≤ (oscOf s v).c.toNat → (oscOf s v).c.toNat ≤ (oscOf s v).p.toNat →
    (voiceTrace v (oscOf s v).p.toNat s).map (fun x => x.1.toNat) =
        countdownCycle (oscOf s v).p.toNat (oscOf s v).c.toNat
      ∧ ∃ t, execTimes (.oscTick v false 0) (oscOf s v).p.toNat s = .next t ∧ oscOf t v = oscOf s v

/-- 40_oscillator.md R107: the number of ticks with level 1 in a period. -/
def Obligations.HighTicksPerPeriod : Prop :=
  ∀ (v : Voice) (s : State), 1 ≤ (oscOf s v).c.toNat → (oscOf s v).c.toNat ≤ (oscOf s v).p.toNat →
    ((voiceTrace v (oscOf s v).p.toNat s).filter (fun x => x.2)).length =
      if (oscOf s v).w.toNat = 0 then 0 else min (oscOf s v).w.toNat ((oscOf s v).p.toNat + 1) - 1

/-- 40_oscillator.md R103 and R104: from countdown 0 the voice counts down from 0xFFFF, its level 0 on the first tick, and
reloads with the 65536th tick; nothing is assumed of the period, which may be 0. -/
def Obligations.CountdownFromZeroTakes65536Ticks : Prop :=
  ∀ (v : Voice) (s : State), (oscOf s v).c = 0 →
    (∀ k, 1 ≤ k → k < 65536 → ∃ t, execTimes (.oscTick v false 0) k s = .next t
      ∧ (oscOf t v).c.toNat = 65536 - k ∧ (k = 1 → t.outacc.getLsbD (voiceBit s v).val = false))
    ∧ ∃ t, execTimes (.oscTick v false 0) 65536 s = .next t ∧ (oscOf t v).c = (oscOf s v).p

/-- 40_oscillator.md R111, R112, R113: after `OSC_SET v` the countdown in flight runs down to its end before the new period
is loaded, and the new pulse width decides the level from the next tick on. -/
def Obligations.NewPeriodWaitsForTheReload : Prop :=
  ∀ (v : Voice) (s t : State), s.mapout.valid = true → exec (.oscSet v false 0) s = .next t →
    1 ≤ (oscOf s v).c.toNat →
    (∀ k, 1 ≤ k → k < (oscOf s v).c.toNat → ∃ u, execTimes (.oscTick v false 0) k t = .next u
      ∧ (oscOf u v).c.toNat = (oscOf s v).c.toNat - k
      ∧ u.outacc.getLsbD (voiceBit s v).val = decide ((oscOf s v).c.toNat - k < s.mapout.w.toNat))
    ∧ ∃ u, execTimes (.oscTick v false 0) (oscOf s v).c.toNat t = .next u
      ∧ (oscOf u v).c = s.mapout.p
      ∧ u.outacc.getLsbD (voiceBit s v).val = decide (s.mapout.p.toNat < s.mapout.w.toNat)

/-- 10_state.md R22 (b): a countdown in `1 .. P` stays there over any number of ticks. -/
def Obligations.CountdownStaysInItsPeriod : Prop :=
  ∀ (v : Voice) (n : Nat) (s : State), 1 ≤ (oscOf s v).c.toNat → (oscOf s v).c.toNat ≤ (oscOf s v).p.toNat →
    ∃ t, execTimes (.oscTick v false 0) n s = .next t
      ∧ (oscOf t v).p = (oscOf s v).p ∧ (oscOf t v).w = (oscOf s v).w
      ∧ 1 ≤ (oscOf t v).c.toNat ∧ (oscOf t v).c.toNat ≤ (oscOf s v).p.toNat

/-! ### The mapper -/

/-- 41_mapper.md R127: what `MAP v` leaves in `MAPOUT` depends only on the four samples, the table and the policy. -/
def Obligations.MapIsAFunctionOfItsInputs : Prop :=
  ∀ (u v : Voice) (g h : Bool) (ph qh : Nibble) (s s' t t' : State),
    Performed (.map u g ph) s → Performed (.map v h qh) s' →
    readSlot s (voiceSlotP s u) = readSlot s' (voiceSlotP s' v) →
    readSlot s (voiceSlotW s u) = readSlot s' (voiceSlotW s' v) →
    s.glat = s'.glat → s.cfg.table = s'.cfg.table → s.cfg.indexPolicy = s'.cfg.indexPolicy →
    exec (.map u g ph) s = .next t → exec (.map v h qh) s' = .next t' →
    t.fault = s.fault → t'.fault = s'.fault → s.fault.cause = .none → s'.fault.cause = .none →
    t.mapout = t'.mapout

/-- 41_mapper.md R128: for a fixed period the pulse width never grows with either pulse-width control, and controls that
agree in steps of 16 give the same one. -/
def Obligations.PulseWidthShrinksWithEitherControl : Prop :=
  ∀ (period vw gw vw' gw' : Word),
    (vw.toNat ≤ vw'.toNat → gw.toNat ≤ gw'.toNat →
      (mapPulse period vw' gw').toNat ≤ (mapPulse period vw gw).toNat)
    ∧ (vw.toNat / 16 = vw'.toNat / 16 → gw.toNat / 16 = gw'.toNat / 16 →
      mapPulse period vw' gw' = mapPulse period vw gw)

/-- 41_mapper.md R125 and R130: after every `MAP v` that completes, the pulse width is at most half the period. -/
def Obligations.PulseWidthIsAtMostHalfThePeriod : Prop :=
  ∀ (v : Voice) (g : Bool) (ph : Nibble) (s t : State),
    Performed (.map v g ph) s → exec (.map v g ph) s = .next t → t.upc ≠ s.upc →
    t.mapout.valid = true ∧ t.mapout.w.toNat ≤ t.mapout.p.toNat / 2

/-- 41_mapper.md R123 and R126: which controls select index 0 (log 22), and the intermediates' bounds; for samples up to 1023 and periods up to 8191 every one of them
fits 16 bits. -/
def Obligations.MapperIntermediatesAreBounded : Prop :=
  ∀ (period vp vw gp gw : Word),
    (mapIndex vp gp = 0 ↔ vp.toNat + gp.toNat < 4) ∧ mapIndex vp gp ≤ 32767 ∧ 16 ≤ mapDivisor vw gw ∧ mapDivisor vw gw ≤ 16777231
    ∧ (mapPulse period vw gw).toNat = period.toNat * 8 / mapDivisor vw gw
    ∧ (vp.toNat ≤ 1023 → gp.toNat ≤ 1023 → mapIndex vp gp ≤ 511)
    ∧ (vw.toNat ≤ 1023 → gw.toNat ≤ 1023 → mapDivisor vw gw ≤ 4111)
    ∧ (period.toNat ≤ 8191 → period.toNat * 8 < 65536)

/-! ### The sampler and the schedule -/

/-- 42_sampler.md R145, R150, R151: `N_CH` completions in a row visit every slot once, from whatever channel they start. -/
def Obligations.SweepWritesEverySlot : Prop :=
  ∀ s : State, Inv s → s.rst = false → s.adc.done = true →
    ∃ t, execTimes (.smpComplete false 0) s.cfg.nCh s = .next t
      ∧ t.ch = s.ch ∧ t.slots = List.replicate s.cfg.nCh { value := s.adc.result, valid := true }

/-- 43_scheduler.md R161 and R162: the words of the default ROM that are performed at each phase, in order. -/
def Obligations.DefaultScheduleByPhase : Prop :=
  ∀ p : Nibble, performedAt Config.defaultRom p =
    [.smpBegin false 0, .tickWait false 0, .oscTick .v0 false 0, .oscTick .v1 false 0, .oscTick .v2 false 0,
      .portWrite false 0, .globalRead false 0]
    ++ (if p = 4 then [.map .v0 true 4, .oscSet .v0 true 4]
        else if p = 8 then [.map .v1 true 8, .oscSet .v1 true 8]
        else if p = 12 then [.map .v2 true 12, .oscSet .v2 true 12]
        else if p = 0 then [.smpComplete true 0]
        else [])
    ++ [.cntInc false 0, .loop false 0]

/-- 43_scheduler.md R160, R162, R163, R165: a whole tick of the default micro-program at a phase with no retune and no
sample. The host applies no reset, and the timer elapses before the tick wait. -/
def Obligations.QuietTickRunsToTheNextTick : Prop :=
  ∀ (e : EnvMove) (es rest : List EnvMove) (s : State), Inv s → Running s → s.rom = Config.defaultRom → s.upc = 0 →
    s.inputs = (e :: es) ++ rest → es.length = 15 → NoReset (e :: es) → e.timerElapses = true →
    phase s ≠ 0 → phase s ≠ 4 → phase s ≠ 8 → phase s ≠ 12 →
    ∃ t, core.run 16 s = .next t ∧ Running t ∧ t.upc = 0 ∧ t.tc = s.tc + 1 ∧ t.inputs = rest
      ∧ t.osc = oscsAfterTick s.osc ∧ PatternOf s.cfg t.osc t.outacc ∧ t.port = some t.outacc
      ∧ portWrites t.events = t.outacc :: portWrites s.events
      ∧ t.slots = s.slots ∧ t.ch = s.ch ∧ t.mapout = s.mapout

/-- 43_scheduler.md R163, R166, R168: the same tick when its wait is held. The timer elapses only with the move `f`, after
`ws.length + 1` moves without; the tick takes `ws.length + 1` attempts more, and nothing else of it changes. -/
def Obligations.HeldWaitOnlyDelaysTheTick : Prop :=
  ∀ (e f : EnvMove) (ws es rest : List EnvMove) (s : State), Inv s → Running s → s.rom = Config.defaultRom → s.upc = 0 →
    s.tmr.elapsed = false → s.inputs = (e :: (ws ++ f :: es)) ++ rest → es.length = 15 →
    NoReset (e :: (ws ++ f :: es)) → (∀ x ∈ e :: ws, x.timerElapses = false) → f.timerElapses = true →
    phase s ≠ 0 → phase s ≠ 4 → phase s ≠ 8 → phase s ≠ 12 →
    ∃ t, core.run (ws.length + 17) s = .next t ∧ Running t ∧ t.upc = 0 ∧ t.tc = s.tc + 1 ∧ t.inputs = rest
      ∧ t.osc = oscsAfterTick s.osc ∧ PatternOf s.cfg t.osc t.outacc ∧ t.port = some t.outacc
      ∧ portWrites t.events = t.outacc :: portWrites s.events
      ∧ t.slots = s.slots ∧ t.ch = s.ch ∧ t.mapout = s.mapout

/-- 42_sampler.md R143, R150 and 43_scheduler.md R160, R163: the tick at phase 0. The ADC completes, with reading `r`, the
conversion that this tick started or found in flight, and slot `CH` holds it at the end. With the default-ROM facts, that
conversion is of channel `CH` (R143). -/
def Obligations.SampleTickStoresTheReading : Prop :=
  ∀ (e : EnvMove) (es rest : List EnvMove) (r : Word) (s : State), Inv s → Running s → s.rom = Config.defaultRom →
    s.upc = 0 → s.inputs = (e :: es) ++ rest → es.length = 15 → NoReset (e :: es) → e.timerElapses = true →
    e.adcCompletes = some r → phase s = 0 →
    ∃ t, core.run 16 s = .next t ∧ Running t ∧ t.upc = 0 ∧ t.tc = s.tc + 1 ∧ t.inputs = rest
      ∧ t.osc = oscsAfterTick s.osc ∧ PatternOf s.cfg t.osc t.outacc ∧ t.port = some t.outacc
      ∧ portWrites t.events = t.outacc :: portWrites s.events
      ∧ t.slots = s.slots.set s.ch.toNat { value := r, valid := true }
      ∧ t.ch.toNat = (s.ch.toNat + 1) % s.cfg.nCh ∧ t.mapout = s.mapout
      ∧ t.adc.done = true ∧ t.adc.result = r ∧ (RomInv s → t.adc.ch = s.ch)

/-- 43_scheduler.md R160, R162, R165 and 41_mapper.md R124: the tick at which voice `v` is retuned, from the entry at the
index, or from the last one where the index is out of range and the policy is to clamp. The pattern is that of the registers
before the retune; the countdown is kept. -/
def Obligations.RetuneTickAppliesTheMapperResult : Prop :=
  ∀ (v : Voice) (e : EnvMove) (es rest : List EnvMove) (vp vw gp gw period : Word) (index at' : Nat) (s : State),
    Inv s → Running s → s.rom = Config.defaultRom → s.upc = 0 →
    s.inputs = (e :: es) ++ rest → es.length = 15 → NoReset (e :: es) → e.timerElapses = true → phase s = mapPhase v →
    readSlot s (voiceSlotP s v) = some vp → readSlot s (voiceSlotW s v) = some vw →
    readSlot s s.cfg.gslotP = some gp → readSlot s s.cfg.gslotW = some gw →
    index = (vp.toNat + gp.toNat) / 4 →
    (index < s.cfg.table.length ∧ at' = index
      ∨ s.cfg.table.length ≤ index ∧ s.cfg.indexPolicy = .clamp ∧ at' = s.cfg.table.length - 1) →
    s.cfg.table[at']? = some period →
    ∃ t, core.run 16 s = .next t ∧ Running t ∧ t.upc = 0 ∧ t.tc = s.tc + 1 ∧ t.inputs = rest
      ∧ t.osc = PerVoice.set (oscsAfterTick s.osc) v
          { p := period, w := mapPulse period vw gw, c := (PerVoice.get (oscsAfterTick s.osc) v).c }
      ∧ PatternOf s.cfg (oscsAfterTick s.osc) t.outacc ∧ t.port = some t.outacc
      ∧ portWrites t.events = t.outacc :: portWrites s.events
      ∧ t.slots = s.slots ∧ t.ch = s.ch
      ∧ t.mapout = { p := period, w := mapPulse period vw gw, valid := true }

/-- 41_mapper.md R124 and 60_exceptions.md R201, R203, R204: the same tick where the index is out of range and the policy is
to fault. The pattern is written, and then the block halts at `MAP v`: the voices have ticked, and no voice is retuned. -/
def Obligations.RetuneTickHaltsWhereTheIndexIsOutOfRange : Prop :=
  ∀ (v : Voice) (e : EnvMove) (es rest : List EnvMove) (vp gp : Word) (index : Nat) (s : State),
    Inv s → Running s → s.rom = Config.defaultRom → s.upc = 0 →
    s.inputs = (e :: es) ++ rest → es.length = 15 → NoReset (e :: es) → e.timerElapses = true → phase s = mapPhase v →
    readSlot s (voiceSlotP s v) = some vp → readSlot s s.cfg.gslotP = some gp →
    index = (vp.toNat + gp.toNat) / 4 → s.cfg.table.length ≤ index → s.cfg.indexPolicy = .fault →
    ∃ t, core.run 16 s = .next t ∧ t.rst = false ∧ t.upc = mapPlace v
      ∧ t.fault = { cause := .idx, info := BitVec.ofNat 16 index, upc := mapPlace v }
      ∧ t.tc = s.tc ∧ t.inputs = rest
      ∧ t.osc = oscsAfterTick s.osc ∧ PatternOf s.cfg t.osc t.outacc ∧ t.port = some t.outacc
      ∧ portWrites t.events = t.outacc :: portWrites s.events
      ∧ t.slots = s.slots ∧ t.ch = s.ch ∧ t.mapout = s.mapout
end

