-- ==== Sys2Proof/Laws/Encoding.lean ====
section
/-! SUPPORT. The fields of a word, as numbers, and the fields of an encoded word (30_encoding.md R70). -/

namespace Sys2Proof

/-- `enc(OP, A, G, PH) = (OP << 12) | (A << 8) | (G << 7) | PH`, as a number. -/
theorem encodeFields_toNat (op a : Nibble) (g : Bool) (ph : Nibble) :
    (encodeFields op a g ph).toNat = op.toNat * 4096 + a.toNat * 256 + g.toNat * 128 + ph.toNat := by
  have join : ∀ {m n : Nat} (x : BitVec m) (y : BitVec n), (x ++ y).toNat = x.toNat * 2 ^ n + y.toNat := by
    intro m n x y
    rw [BitVec.toNat_append, Nat.shiftLeft_eq, Nat.mul_comm, Nat.two_pow_add_eq_or_of_lt y.isLt, Nat.mul_comm]
  have hp := ph.isLt
  have ha := a.isLt
  rw [encodeFields, join, join, join, join]
  simp
  omega

theorem fieldOp_toNat (w : Word) : (fieldOp w).toNat = w.toNat / 4096 := by
  have h := w.isLt
  simp only [fieldOp, BitVec.extractLsb'_toNat, Nat.shiftRight_eq_div_pow]
  omega

theorem fieldA_toNat (w : Word) : (fieldA w).toNat = w.toNat / 256 % 16 := by
  simp only [fieldA, BitVec.extractLsb'_toNat, Nat.shiftRight_eq_div_pow]

theorem fieldZ_toNat (w : Word) : (fieldZ w).toNat = w.toNat / 16 % 8 := by
  simp only [fieldZ, BitVec.extractLsb'_toNat, Nat.shiftRight_eq_div_pow]

theorem fieldPh_toNat (w : Word) : (fieldPh w).toNat = w.toNat % 16 := by
  simp [fieldPh, BitVec.extractLsb'_toNat]

theorem fieldG_toNat (w : Word) : (fieldG w).toNat = w.toNat / 128 % 2 := by
  rw [fieldG, BitVec.getLsbD, Nat.testBit_eq_decide_div_mod_eq]
  by_cases h : w.toNat / 2 ^ 7 % 2 = 1
  · rw [decide_eq_true h, Bool.toNat_true]; omega
  · rw [decide_eq_false h, Bool.toNat_false]; omega

@[simp] theorem fieldOp_encodeFields (op a : Nibble) (g : Bool) (ph : Nibble) : fieldOp (encodeFields op a g ph) = op := by
  apply BitVec.eq_of_toNat_eq
  have := a.isLt
  have := ph.isLt
  have := Bool.toNat_lt g
  rw [fieldOp_toNat, encodeFields_toNat]
  omega

@[simp] theorem fieldA_encodeFields (op a : Nibble) (g : Bool) (ph : Nibble) : fieldA (encodeFields op a g ph) = a := by
  apply BitVec.eq_of_toNat_eq
  have := a.isLt
  have := ph.isLt
  have := Bool.toNat_lt g
  rw [fieldA_toNat, encodeFields_toNat]
  omega

@[simp] theorem fieldZ_encodeFields (op a : Nibble) (g : Bool) (ph : Nibble) : fieldZ (encodeFields op a g ph) = 0 := by
  apply BitVec.eq_of_toNat_eq
  have := ph.isLt
  have := Bool.toNat_lt g
  rw [fieldZ_toNat, encodeFields_toNat]
  simp
  omega

@[simp] theorem fieldPh_encodeFields (op a : Nibble) (g : Bool) (ph : Nibble) : fieldPh (encodeFields op a g ph) = ph := by
  apply BitVec.eq_of_toNat_eq
  have := ph.isLt
  rw [fieldPh_toNat, encodeFields_toNat]
  omega

@[simp] theorem fieldG_encodeFields (op a : Nibble) (g : Bool) (ph : Nibble) : fieldG (encodeFields op a g ph) = g := by
  have h : (fieldG (encodeFields op a g ph)).toNat = g.toNat := by
    have := ph.isLt
    have := Bool.toNat_lt g
    rw [fieldG_toNat, encodeFields_toNat]
    omega
  revert h
  cases fieldG (encodeFields op a g ph) <;> cases g <;> simp

/-- The voice a field names is the voice whose field it is. -/
@[simp] theorem voiceOfField_fieldOfVoice (v : Voice) : voiceOfField (fieldOfVoice v) = some v := by
  cases v <;> decide

theorem voiceOfField_eq_some {a : Nibble} {v : Voice} (h : voiceOfField a = some v) : a = fieldOfVoice v := by
  revert a v
  decide

end Sys2Proof
end

