-- ==== Sys2Proof/Laws/State.lean ====
section
/-! SUPPORT. What each update of the state leaves in each field: one lemma for each field and update, so that no proof unfolds
a record update. -/

namespace Sys2Proof.Machine

/-! ### `advance` -/

@[simp] theorem advance_osc (s : State) : (advance s).osc = s.osc := rfl
@[simp] theorem advance_slots (s : State) : (advance s).slots = s.slots := rfl
@[simp] theorem advance_ch (s : State) : (advance s).ch = s.ch := rfl
@[simp] theorem advance_tc (s : State) : (advance s).tc = s.tc := rfl
@[simp] theorem advance_glat (s : State) : (advance s).glat = s.glat := rfl
@[simp] theorem advance_mapout (s : State) : (advance s).mapout = s.mapout := rfl
@[simp] theorem advance_outacc (s : State) : (advance s).outacc = s.outacc := rfl
@[simp] theorem advance_upc (s : State) : (advance s).upc = s.upc + 1 := rfl
@[simp] theorem advance_fault (s : State) : (advance s).fault = s.fault := rfl
@[simp] theorem advance_adc (s : State) : (advance s).adc = s.adc := rfl
@[simp] theorem advance_tmr (s : State) : (advance s).tmr = s.tmr := rfl
@[simp] theorem advance_port (s : State) : (advance s).port = s.port := rfl
@[simp] theorem advance_rom (s : State) : (advance s).rom = s.rom := rfl
@[simp] theorem advance_cfg (s : State) : (advance s).cfg = s.cfg := rfl
@[simp] theorem advance_rst (s : State) : (advance s).rst = s.rst := rfl
@[simp] theorem advance_events (s : State) : (advance s).events = s.events := rfl
@[simp] theorem advance_inputs (s : State) : (advance s).inputs = s.inputs := rfl
@[simp] theorem advance_moment (s : State) : (advance s).moment = s.moment := rfl

/-! ### `raiseFault` -/

@[simp] theorem raiseFault_osc (c : Cause) (x : Word) (s : State) : (raiseFault c x s).osc = s.osc := rfl
@[simp] theorem raiseFault_slots (c : Cause) (x : Word) (s : State) : (raiseFault c x s).slots = s.slots := rfl
@[simp] theorem raiseFault_ch (c : Cause) (x : Word) (s : State) : (raiseFault c x s).ch = s.ch := rfl
@[simp] theorem raiseFault_tc (c : Cause) (x : Word) (s : State) : (raiseFault c x s).tc = s.tc := rfl
@[simp] theorem raiseFault_glat (c : Cause) (x : Word) (s : State) : (raiseFault c x s).glat = s.glat := rfl
@[simp] theorem raiseFault_mapout (c : Cause) (x : Word) (s : State) : (raiseFault c x s).mapout = s.mapout := rfl
@[simp] theorem raiseFault_outacc (c : Cause) (x : Word) (s : State) : (raiseFault c x s).outacc = s.outacc := rfl
@[simp] theorem raiseFault_upc (c : Cause) (x : Word) (s : State) : (raiseFault c x s).upc = s.upc := rfl
@[simp] theorem raiseFault_fault (c : Cause) (x : Word) (s : State) : (raiseFault c x s).fault = { cause := c, info := x, upc := s.upc } := rfl
@[simp] theorem raiseFault_adc (c : Cause) (x : Word) (s : State) : (raiseFault c x s).adc = s.adc := rfl
@[simp] theorem raiseFault_tmr (c : Cause) (x : Word) (s : State) : (raiseFault c x s).tmr = s.tmr := rfl
@[simp] theorem raiseFault_port (c : Cause) (x : Word) (s : State) : (raiseFault c x s).port = s.port := rfl
@[simp] theorem raiseFault_rom (c : Cause) (x : Word) (s : State) : (raiseFault c x s).rom = s.rom := rfl
@[simp] theorem raiseFault_cfg (c : Cause) (x : Word) (s : State) : (raiseFault c x s).cfg = s.cfg := rfl
@[simp] theorem raiseFault_rst (c : Cause) (x : Word) (s : State) : (raiseFault c x s).rst = s.rst := rfl
@[simp] theorem raiseFault_events (c : Cause) (x : Word) (s : State) : (raiseFault c x s).events = s.events := rfl
@[simp] theorem raiseFault_inputs (c : Cause) (x : Word) (s : State) : (raiseFault c x s).inputs = s.inputs := rfl
@[simp] theorem raiseFault_moment (c : Cause) (x : Word) (s : State) : (raiseFault c x s).moment = s.moment := rfl

/-! ### `writeSlot` -/

@[simp] theorem writeSlot_osc (i : Nat) (x : Word) (s : State) : (writeSlot s i x).osc = s.osc := rfl
@[simp] theorem writeSlot_slots (i : Nat) (x : Word) (s : State) : (writeSlot s i x).slots = s.slots.set i { value := x, valid := true } := rfl
@[simp] theorem writeSlot_ch (i : Nat) (x : Word) (s : State) : (writeSlot s i x).ch = s.ch := rfl
@[simp] theorem writeSlot_tc (i : Nat) (x : Word) (s : State) : (writeSlot s i x).tc = s.tc := rfl
@[simp] theorem writeSlot_glat (i : Nat) (x : Word) (s : State) : (writeSlot s i x).glat = s.glat := rfl
@[simp] theorem writeSlot_mapout (i : Nat) (x : Word) (s : State) : (writeSlot s i x).mapout = s.mapout := rfl
@[simp] theorem writeSlot_outacc (i : Nat) (x : Word) (s : State) : (writeSlot s i x).outacc = s.outacc := rfl
@[simp] theorem writeSlot_upc (i : Nat) (x : Word) (s : State) : (writeSlot s i x).upc = s.upc := rfl
@[simp] theorem writeSlot_fault (i : Nat) (x : Word) (s : State) : (writeSlot s i x).fault = s.fault := rfl
@[simp] theorem writeSlot_adc (i : Nat) (x : Word) (s : State) : (writeSlot s i x).adc = s.adc := rfl
@[simp] theorem writeSlot_tmr (i : Nat) (x : Word) (s : State) : (writeSlot s i x).tmr = s.tmr := rfl
@[simp] theorem writeSlot_port (i : Nat) (x : Word) (s : State) : (writeSlot s i x).port = s.port := rfl
@[simp] theorem writeSlot_rom (i : Nat) (x : Word) (s : State) : (writeSlot s i x).rom = s.rom := rfl
@[simp] theorem writeSlot_cfg (i : Nat) (x : Word) (s : State) : (writeSlot s i x).cfg = s.cfg := rfl
@[simp] theorem writeSlot_rst (i : Nat) (x : Word) (s : State) : (writeSlot s i x).rst = s.rst := rfl
@[simp] theorem writeSlot_events (i : Nat) (x : Word) (s : State) : (writeSlot s i x).events = s.events := rfl
@[simp] theorem writeSlot_inputs (i : Nat) (x : Word) (s : State) : (writeSlot s i x).inputs = s.inputs := rfl
@[simp] theorem writeSlot_moment (i : Nat) (x : Word) (s : State) : (writeSlot s i x).moment = s.moment := rfl

/-! ### `record` -/

@[simp] theorem record_osc (t : Transaction) (s : State) : (record t s).osc = s.osc := rfl
@[simp] theorem record_slots (t : Transaction) (s : State) : (record t s).slots = s.slots := rfl
@[simp] theorem record_ch (t : Transaction) (s : State) : (record t s).ch = s.ch := rfl
@[simp] theorem record_tc (t : Transaction) (s : State) : (record t s).tc = s.tc := rfl
@[simp] theorem record_glat (t : Transaction) (s : State) : (record t s).glat = s.glat := rfl
@[simp] theorem record_mapout (t : Transaction) (s : State) : (record t s).mapout = s.mapout := rfl
@[simp] theorem record_outacc (t : Transaction) (s : State) : (record t s).outacc = s.outacc := rfl
@[simp] theorem record_upc (t : Transaction) (s : State) : (record t s).upc = s.upc := rfl
@[simp] theorem record_fault (t : Transaction) (s : State) : (record t s).fault = s.fault := rfl
@[simp] theorem record_adc (t : Transaction) (s : State) : (record t s).adc = s.adc := rfl
@[simp] theorem record_tmr (t : Transaction) (s : State) : (record t s).tmr = s.tmr := rfl
@[simp] theorem record_port (t : Transaction) (s : State) : (record t s).port = s.port := rfl
@[simp] theorem record_rom (t : Transaction) (s : State) : (record t s).rom = s.rom := rfl
@[simp] theorem record_cfg (t : Transaction) (s : State) : (record t s).cfg = s.cfg := rfl
@[simp] theorem record_rst (t : Transaction) (s : State) : (record t s).rst = s.rst := rfl
@[simp] theorem record_events (t : Transaction) (s : State) : (record t s).events = t :: s.events := rfl
@[simp] theorem record_inputs (t : Transaction) (s : State) : (record t s).inputs = s.inputs := rfl
@[simp] theorem record_moment (t : Transaction) (s : State) : (record t s).moment = s.moment := rfl

/-! ### `adcStart` -/

@[simp] theorem adcStart_osc (c : Nibble) (s : State) : (adcStart c s).osc = s.osc := rfl
@[simp] theorem adcStart_slots (c : Nibble) (s : State) : (adcStart c s).slots = s.slots := rfl
@[simp] theorem adcStart_ch (c : Nibble) (s : State) : (adcStart c s).ch = s.ch := rfl
@[simp] theorem adcStart_tc (c : Nibble) (s : State) : (adcStart c s).tc = s.tc := rfl
@[simp] theorem adcStart_glat (c : Nibble) (s : State) : (adcStart c s).glat = s.glat := rfl
@[simp] theorem adcStart_mapout (c : Nibble) (s : State) : (adcStart c s).mapout = s.mapout := rfl
@[simp] theorem adcStart_outacc (c : Nibble) (s : State) : (adcStart c s).outacc = s.outacc := rfl
@[simp] theorem adcStart_upc (c : Nibble) (s : State) : (adcStart c s).upc = s.upc := rfl
@[simp] theorem adcStart_fault (c : Nibble) (s : State) : (adcStart c s).fault = s.fault := rfl
@[simp] theorem adcStart_adc (c : Nibble) (s : State) : (adcStart c s).adc = { s.adc with busy := true, done := false, ch := c } := rfl
@[simp] theorem adcStart_tmr (c : Nibble) (s : State) : (adcStart c s).tmr = s.tmr := rfl
@[simp] theorem adcStart_port (c : Nibble) (s : State) : (adcStart c s).port = s.port := rfl
@[simp] theorem adcStart_rom (c : Nibble) (s : State) : (adcStart c s).rom = s.rom := rfl
@[simp] theorem adcStart_cfg (c : Nibble) (s : State) : (adcStart c s).cfg = s.cfg := rfl
@[simp] theorem adcStart_rst (c : Nibble) (s : State) : (adcStart c s).rst = s.rst := rfl
@[simp] theorem adcStart_events (c : Nibble) (s : State) : (adcStart c s).events = .adcStart c :: s.events := rfl
@[simp] theorem adcStart_inputs (c : Nibble) (s : State) : (adcStart c s).inputs = s.inputs := rfl
@[simp] theorem adcStart_moment (c : Nibble) (s : State) : (adcStart c s).moment = s.moment := rfl

/-! ### `tickClear` -/

@[simp] theorem tickClear_osc (s : State) : (tickClear s).osc = s.osc := rfl
@[simp] theorem tickClear_slots (s : State) : (tickClear s).slots = s.slots := rfl
@[simp] theorem tickClear_ch (s : State) : (tickClear s).ch = s.ch := rfl
@[simp] theorem tickClear_tc (s : State) : (tickClear s).tc = s.tc := rfl
@[simp] theorem tickClear_glat (s : State) : (tickClear s).glat = s.glat := rfl
@[simp] theorem tickClear_mapout (s : State) : (tickClear s).mapout = s.mapout := rfl
@[simp] theorem tickClear_outacc (s : State) : (tickClear s).outacc = s.outacc := rfl
@[simp] theorem tickClear_upc (s : State) : (tickClear s).upc = s.upc := rfl
@[simp] theorem tickClear_fault (s : State) : (tickClear s).fault = s.fault := rfl
@[simp] theorem tickClear_adc (s : State) : (tickClear s).adc = s.adc := rfl
@[simp] theorem tickClear_tmr (s : State) : (tickClear s).tmr = { s.tmr with elapsed := false } := rfl
@[simp] theorem tickClear_port (s : State) : (tickClear s).port = s.port := rfl
@[simp] theorem tickClear_rom (s : State) : (tickClear s).rom = s.rom := rfl
@[simp] theorem tickClear_cfg (s : State) : (tickClear s).cfg = s.cfg := rfl
@[simp] theorem tickClear_rst (s : State) : (tickClear s).rst = s.rst := rfl
@[simp] theorem tickClear_events (s : State) : (tickClear s).events = .tmrClear :: s.events := rfl
@[simp] theorem tickClear_inputs (s : State) : (tickClear s).inputs = s.inputs := rfl
@[simp] theorem tickClear_moment (s : State) : (tickClear s).moment = s.moment := rfl

/-! ### `portOut` -/

@[simp] theorem portOut_osc (b : Byte) (s : State) : (portOut b s).osc = s.osc := rfl
@[simp] theorem portOut_slots (b : Byte) (s : State) : (portOut b s).slots = s.slots := rfl
@[simp] theorem portOut_ch (b : Byte) (s : State) : (portOut b s).ch = s.ch := rfl
@[simp] theorem portOut_tc (b : Byte) (s : State) : (portOut b s).tc = s.tc := rfl
@[simp] theorem portOut_glat (b : Byte) (s : State) : (portOut b s).glat = s.glat := rfl
@[simp] theorem portOut_mapout (b : Byte) (s : State) : (portOut b s).mapout = s.mapout := rfl
@[simp] theorem portOut_outacc (b : Byte) (s : State) : (portOut b s).outacc = s.outacc := rfl
@[simp] theorem portOut_upc (b : Byte) (s : State) : (portOut b s).upc = s.upc := rfl
@[simp] theorem portOut_fault (b : Byte) (s : State) : (portOut b s).fault = s.fault := rfl
@[simp] theorem portOut_adc (b : Byte) (s : State) : (portOut b s).adc = s.adc := rfl
@[simp] theorem portOut_tmr (b : Byte) (s : State) : (portOut b s).tmr = s.tmr := rfl
@[simp] theorem portOut_port (b : Byte) (s : State) : (portOut b s).port = some b := rfl
@[simp] theorem portOut_rom (b : Byte) (s : State) : (portOut b s).rom = s.rom := rfl
@[simp] theorem portOut_cfg (b : Byte) (s : State) : (portOut b s).cfg = s.cfg := rfl
@[simp] theorem portOut_rst (b : Byte) (s : State) : (portOut b s).rst = s.rst := rfl
@[simp] theorem portOut_events (b : Byte) (s : State) : (portOut b s).events = .portWr b :: s.events := rfl
@[simp] theorem portOut_inputs (b : Byte) (s : State) : (portOut b s).inputs = s.inputs := rfl
@[simp] theorem portOut_moment (b : Byte) (s : State) : (portOut b s).moment = s.moment := rfl

/-! ### `timerStart` -/

@[simp] theorem timerStart_osc (n : Word) (s : State) : (timerStart n s).osc = s.osc := rfl
@[simp] theorem timerStart_slots (n : Word) (s : State) : (timerStart n s).slots = s.slots := rfl
@[simp] theorem timerStart_ch (n : Word) (s : State) : (timerStart n s).ch = s.ch := rfl
@[simp] theorem timerStart_tc (n : Word) (s : State) : (timerStart n s).tc = s.tc := rfl
@[simp] theorem timerStart_glat (n : Word) (s : State) : (timerStart n s).glat = s.glat := rfl
@[simp] theorem timerStart_mapout (n : Word) (s : State) : (timerStart n s).mapout = s.mapout := rfl
@[simp] theorem timerStart_outacc (n : Word) (s : State) : (timerStart n s).outacc = s.outacc := rfl
@[simp] theorem timerStart_upc (n : Word) (s : State) : (timerStart n s).upc = s.upc := rfl
@[simp] theorem timerStart_fault (n : Word) (s : State) : (timerStart n s).fault = s.fault := rfl
@[simp] theorem timerStart_adc (n : Word) (s : State) : (timerStart n s).adc = s.adc := rfl
@[simp] theorem timerStart_tmr (n : Word) (s : State) : (timerStart n s).tmr = { elapsed := false, running := true, period := n } := rfl
@[simp] theorem timerStart_port (n : Word) (s : State) : (timerStart n s).port = s.port := rfl
@[simp] theorem timerStart_rom (n : Word) (s : State) : (timerStart n s).rom = s.rom := rfl
@[simp] theorem timerStart_cfg (n : Word) (s : State) : (timerStart n s).cfg = s.cfg := rfl
@[simp] theorem timerStart_rst (n : Word) (s : State) : (timerStart n s).rst = s.rst := rfl
@[simp] theorem timerStart_events (n : Word) (s : State) : (timerStart n s).events = .tmrStart n :: s.events := rfl
@[simp] theorem timerStart_inputs (n : Word) (s : State) : (timerStart n s).inputs = s.inputs := rfl
@[simp] theorem timerStart_moment (n : Word) (s : State) : (timerStart n s).moment = s.moment := rfl

/-! ### `consumeMove` -/

@[simp] theorem consumeMove_osc (s : State) : (consumeMove s).osc = s.osc := rfl
@[simp] theorem consumeMove_slots (s : State) : (consumeMove s).slots = s.slots := rfl
@[simp] theorem consumeMove_ch (s : State) : (consumeMove s).ch = s.ch := rfl
@[simp] theorem consumeMove_tc (s : State) : (consumeMove s).tc = s.tc := rfl
@[simp] theorem consumeMove_glat (s : State) : (consumeMove s).glat = s.glat := rfl
@[simp] theorem consumeMove_mapout (s : State) : (consumeMove s).mapout = s.mapout := rfl
@[simp] theorem consumeMove_outacc (s : State) : (consumeMove s).outacc = s.outacc := rfl
@[simp] theorem consumeMove_upc (s : State) : (consumeMove s).upc = s.upc := rfl
@[simp] theorem consumeMove_fault (s : State) : (consumeMove s).fault = s.fault := rfl
@[simp] theorem consumeMove_adc (s : State) : (consumeMove s).adc = s.adc := rfl
@[simp] theorem consumeMove_tmr (s : State) : (consumeMove s).tmr = s.tmr := rfl
@[simp] theorem consumeMove_port (s : State) : (consumeMove s).port = s.port := rfl
@[simp] theorem consumeMove_rom (s : State) : (consumeMove s).rom = s.rom := rfl
@[simp] theorem consumeMove_cfg (s : State) : (consumeMove s).cfg = s.cfg := rfl
@[simp] theorem consumeMove_rst (s : State) : (consumeMove s).rst = s.rst := rfl
@[simp] theorem consumeMove_events (s : State) : (consumeMove s).events = s.events := rfl
@[simp] theorem consumeMove_inputs (s : State) : (consumeMove s).inputs = s.inputs.tail := rfl
@[simp] theorem consumeMove_moment (s : State) : (consumeMove s).moment = s.moment + 1 := rfl

/-! ### `tickVoice` -/

@[simp] theorem tickVoice_osc (v : Voice) (s : State) : (tickVoice v s).osc = PerVoice.set s.osc v { oscOf s v with c := nextCountdown (oscOf s v) } := rfl
@[simp] theorem tickVoice_slots (v : Voice) (s : State) : (tickVoice v s).slots = s.slots := rfl
@[simp] theorem tickVoice_ch (v : Voice) (s : State) : (tickVoice v s).ch = s.ch := rfl
@[simp] theorem tickVoice_tc (v : Voice) (s : State) : (tickVoice v s).tc = s.tc := rfl
@[simp] theorem tickVoice_glat (v : Voice) (s : State) : (tickVoice v s).glat = s.glat := rfl
@[simp] theorem tickVoice_mapout (v : Voice) (s : State) : (tickVoice v s).mapout = s.mapout := rfl
@[simp] theorem tickVoice_outacc (v : Voice) (s : State) : (tickVoice v s).outacc = setBit s.outacc (voiceBit s v) (level (nextCountdown (oscOf s v)) (oscOf s v).w) := rfl
@[simp] theorem tickVoice_upc (v : Voice) (s : State) : (tickVoice v s).upc = s.upc := rfl
@[simp] theorem tickVoice_fault (v : Voice) (s : State) : (tickVoice v s).fault = s.fault := rfl
@[simp] theorem tickVoice_adc (v : Voice) (s : State) : (tickVoice v s).adc = s.adc := rfl
@[simp] theorem tickVoice_tmr (v : Voice) (s : State) : (tickVoice v s).tmr = s.tmr := rfl
@[simp] theorem tickVoice_port (v : Voice) (s : State) : (tickVoice v s).port = s.port := rfl
@[simp] theorem tickVoice_rom (v : Voice) (s : State) : (tickVoice v s).rom = s.rom := rfl
@[simp] theorem tickVoice_cfg (v : Voice) (s : State) : (tickVoice v s).cfg = s.cfg := rfl
@[simp] theorem tickVoice_rst (v : Voice) (s : State) : (tickVoice v s).rst = s.rst := rfl
@[simp] theorem tickVoice_events (v : Voice) (s : State) : (tickVoice v s).events = s.events := rfl
@[simp] theorem tickVoice_inputs (v : Voice) (s : State) : (tickVoice v s).inputs = s.inputs := rfl
@[simp] theorem tickVoice_moment (v : Voice) (s : State) : (tickVoice v s).moment = s.moment := rfl

/-! ### `setVoice` -/

@[simp] theorem setVoice_osc (v : Voice) (s : State) : (setVoice v s).osc = PerVoice.set s.osc v { oscOf s v with p := s.mapout.p, w := s.mapout.w } := rfl
@[simp] theorem setVoice_slots (v : Voice) (s : State) : (setVoice v s).slots = s.slots := rfl
@[simp] theorem setVoice_ch (v : Voice) (s : State) : (setVoice v s).ch = s.ch := rfl
@[simp] theorem setVoice_tc (v : Voice) (s : State) : (setVoice v s).tc = s.tc := rfl
@[simp] theorem setVoice_glat (v : Voice) (s : State) : (setVoice v s).glat = s.glat := rfl
@[simp] theorem setVoice_mapout (v : Voice) (s : State) : (setVoice v s).mapout = s.mapout := rfl
@[simp] theorem setVoice_outacc (v : Voice) (s : State) : (setVoice v s).outacc = s.outacc := rfl
@[simp] theorem setVoice_upc (v : Voice) (s : State) : (setVoice v s).upc = s.upc := rfl
@[simp] theorem setVoice_fault (v : Voice) (s : State) : (setVoice v s).fault = s.fault := rfl
@[simp] theorem setVoice_adc (v : Voice) (s : State) : (setVoice v s).adc = s.adc := rfl
@[simp] theorem setVoice_tmr (v : Voice) (s : State) : (setVoice v s).tmr = s.tmr := rfl
@[simp] theorem setVoice_port (v : Voice) (s : State) : (setVoice v s).port = s.port := rfl
@[simp] theorem setVoice_rom (v : Voice) (s : State) : (setVoice v s).rom = s.rom := rfl
@[simp] theorem setVoice_cfg (v : Voice) (s : State) : (setVoice v s).cfg = s.cfg := rfl
@[simp] theorem setVoice_rst (v : Voice) (s : State) : (setVoice v s).rst = s.rst := rfl
@[simp] theorem setVoice_events (v : Voice) (s : State) : (setVoice v s).events = s.events := rfl
@[simp] theorem setVoice_inputs (v : Voice) (s : State) : (setVoice v s).inputs = s.inputs := rfl
@[simp] theorem setVoice_moment (v : Voice) (s : State) : (setVoice v s).moment = s.moment := rfl

/-! ### `releaseReset` -/

@[simp] theorem releaseReset_osc (s : State) : (releaseReset s).osc = s.osc := rfl
@[simp] theorem releaseReset_slots (s : State) : (releaseReset s).slots = s.slots := rfl
@[simp] theorem releaseReset_ch (s : State) : (releaseReset s).ch = s.ch := rfl
@[simp] theorem releaseReset_tc (s : State) : (releaseReset s).tc = s.tc := rfl
@[simp] theorem releaseReset_glat (s : State) : (releaseReset s).glat = s.glat := rfl
@[simp] theorem releaseReset_mapout (s : State) : (releaseReset s).mapout = s.mapout := rfl
@[simp] theorem releaseReset_outacc (s : State) : (releaseReset s).outacc = s.outacc := rfl
@[simp] theorem releaseReset_upc (s : State) : (releaseReset s).upc = s.upc := rfl
@[simp] theorem releaseReset_fault (s : State) : (releaseReset s).fault = s.fault := rfl
@[simp] theorem releaseReset_adc (s : State) : (releaseReset s).adc = s.adc := rfl
@[simp] theorem releaseReset_tmr (s : State) : (releaseReset s).tmr = { elapsed := false, running := true, period := s.cfg.tickPeriod } := rfl
@[simp] theorem releaseReset_port (s : State) : (releaseReset s).port = s.port := rfl
@[simp] theorem releaseReset_rom (s : State) : (releaseReset s).rom = s.rom := rfl
@[simp] theorem releaseReset_cfg (s : State) : (releaseReset s).cfg = s.cfg := rfl
@[simp] theorem releaseReset_rst (s : State) : (releaseReset s).rst = false := rfl
@[simp] theorem releaseReset_events (s : State) : (releaseReset s).events = .tmrStart s.cfg.tickPeriod :: s.events := rfl
@[simp] theorem releaseReset_inputs (s : State) : (releaseReset s).inputs = s.inputs := rfl
@[simp] theorem releaseReset_moment (s : State) : (releaseReset s).moment = s.moment := rfl

/-! ### `State.atReset` -/

@[simp] theorem atReset_osc (c : Params) (r : Rom) (es : List EnvMove) (m : Nat) :
    (State.atReset c r es m).osc = oscAtReset c := rfl
@[simp] theorem atReset_slots (c : Params) (r : Rom) (es : List EnvMove) (m : Nat) :
    (State.atReset c r es m).slots = List.replicate c.nCh { value := 0, valid := false } := rfl
@[simp] theorem atReset_ch (c : Params) (r : Rom) (es : List EnvMove) (m : Nat) :
    (State.atReset c r es m).ch = 0 := rfl
@[simp] theorem atReset_tc (c : Params) (r : Rom) (es : List EnvMove) (m : Nat) :
    (State.atReset c r es m).tc = 0 := rfl
@[simp] theorem atReset_glat (c : Params) (r : Rom) (es : List EnvMove) (m : Nat) :
    (State.atReset c r es m).glat = { gp := 0, gw := 0, valid := false } := rfl
@[simp] theorem atReset_mapout (c : Params) (r : Rom) (es : List EnvMove) (m : Nat) :
    (State.atReset c r es m).mapout = { p := 0, w := 0, valid := false } := rfl
@[simp] theorem atReset_outacc (c : Params) (r : Rom) (es : List EnvMove) (m : Nat) :
    (State.atReset c r es m).outacc = 0 := rfl
@[simp] theorem atReset_upc (c : Params) (r : Rom) (es : List EnvMove) (m : Nat) :
    (State.atReset c r es m).upc = 0 := rfl
@[simp] theorem atReset_fault (c : Params) (r : Rom) (es : List EnvMove) (m : Nat) :
    (State.atReset c r es m).fault = { cause := .none, info := 0, upc := 0 } := rfl
@[simp] theorem atReset_adc (c : Params) (r : Rom) (es : List EnvMove) (m : Nat) :
    (State.atReset c r es m).adc = { busy := false, done := false, ch := 0, result := Config.adcResultAtReset m } := rfl
@[simp] theorem atReset_tmr (c : Params) (r : Rom) (es : List EnvMove) (m : Nat) :
    (State.atReset c r es m).tmr = { elapsed := false, running := false, period := 0 } := rfl
@[simp] theorem atReset_port (c : Params) (r : Rom) (es : List EnvMove) (m : Nat) :
    (State.atReset c r es m).port = none := rfl
@[simp] theorem atReset_rom (c : Params) (r : Rom) (es : List EnvMove) (m : Nat) :
    (State.atReset c r es m).rom = r := rfl
@[simp] theorem atReset_cfg (c : Params) (r : Rom) (es : List EnvMove) (m : Nat) :
    (State.atReset c r es m).cfg = c := rfl
@[simp] theorem atReset_rst (c : Params) (r : Rom) (es : List EnvMove) (m : Nat) :
    (State.atReset c r es m).rst = true := rfl
@[simp] theorem atReset_events (c : Params) (r : Rom) (es : List EnvMove) (m : Nat) :
    (State.atReset c r es m).events = [] := rfl
@[simp] theorem atReset_inputs (c : Params) (r : Rom) (es : List EnvMove) (m : Nat) :
    (State.atReset c r es m).inputs = es := rfl
@[simp] theorem atReset_moment (c : Params) (r : Rom) (es : List EnvMove) (m : Nat) :
    (State.atReset c r es m).moment = m := rfl

/-! ### `applyReset` -/

theorem applyReset_eq (s : State) : applyReset s = State.atReset s.cfg s.rom s.inputs s.moment := rfl

/-! ### The agents' moves -/

@[simp] theorem timerMove_osc (b : Bool) (s : State) : (timerMove b s).osc = s.osc := by
  unfold timerMove; split <;> rfl
@[simp] theorem timerMove_slots (b : Bool) (s : State) : (timerMove b s).slots = s.slots := by
  unfold timerMove; split <;> rfl
@[simp] theorem timerMove_ch (b : Bool) (s : State) : (timerMove b s).ch = s.ch := by
  unfold timerMove; split <;> rfl
@[simp] theorem timerMove_tc (b : Bool) (s : State) : (timerMove b s).tc = s.tc := by
  unfold timerMove; split <;> rfl
@[simp] theorem timerMove_glat (b : Bool) (s : State) : (timerMove b s).glat = s.glat := by
  unfold timerMove; split <;> rfl
@[simp] theorem timerMove_mapout (b : Bool) (s : State) : (timerMove b s).mapout = s.mapout := by
  unfold timerMove; split <;> rfl
@[simp] theorem timerMove_outacc (b : Bool) (s : State) : (timerMove b s).outacc = s.outacc := by
  unfold timerMove; split <;> rfl
@[simp] theorem timerMove_upc (b : Bool) (s : State) : (timerMove b s).upc = s.upc := by
  unfold timerMove; split <;> rfl
@[simp] theorem timerMove_fault (b : Bool) (s : State) : (timerMove b s).fault = s.fault := by
  unfold timerMove; split <;> rfl
@[simp] theorem timerMove_adc (b : Bool) (s : State) : (timerMove b s).adc = s.adc := by
  unfold timerMove; split <;> rfl
@[simp] theorem timerMove_port (b : Bool) (s : State) : (timerMove b s).port = s.port := by
  unfold timerMove; split <;> rfl
@[simp] theorem timerMove_rom (b : Bool) (s : State) : (timerMove b s).rom = s.rom := by
  unfold timerMove; split <;> rfl
@[simp] theorem timerMove_cfg (b : Bool) (s : State) : (timerMove b s).cfg = s.cfg := by
  unfold timerMove; split <;> rfl
@[simp] theorem timerMove_rst (b : Bool) (s : State) : (timerMove b s).rst = s.rst := by
  unfold timerMove; split <;> rfl
@[simp] theorem timerMove_events (b : Bool) (s : State) : (timerMove b s).events = s.events := by
  unfold timerMove; split <;> rfl
@[simp] theorem timerMove_inputs (b : Bool) (s : State) : (timerMove b s).inputs = s.inputs := by
  unfold timerMove; split <;> rfl
@[simp] theorem timerMove_moment (b : Bool) (s : State) : (timerMove b s).moment = s.moment := by
  unfold timerMove; split <;> rfl
@[simp] theorem timerMove_tmr (b : Bool) (s : State) :
    (timerMove b s).tmr = { s.tmr with elapsed := s.tmr.elapsed || (b && s.tmr.running) } := by
  unfold timerMove
  cases h : b && s.tmr.running <;> simp
@[simp] theorem adcMove_osc (r : Option Word) (s : State) : (adcMove r s).osc = s.osc := by
  unfold adcMove; split
  · split <;> rfl
  · rfl
@[simp] theorem adcMove_slots (r : Option Word) (s : State) : (adcMove r s).slots = s.slots := by
  unfold adcMove; split
  · split <;> rfl
  · rfl
@[simp] theorem adcMove_ch (r : Option Word) (s : State) : (adcMove r s).ch = s.ch := by
  unfold adcMove; split
  · split <;> rfl
  · rfl
@[simp] theorem adcMove_tc (r : Option Word) (s : State) : (adcMove r s).tc = s.tc := by
  unfold adcMove; split
  · split <;> rfl
  · rfl
@[simp] theorem adcMove_glat (r : Option Word) (s : State) : (adcMove r s).glat = s.glat := by
  unfold adcMove; split
  · split <;> rfl
  · rfl
@[simp] theorem adcMove_mapout (r : Option Word) (s : State) : (adcMove r s).mapout = s.mapout := by
  unfold adcMove; split
  · split <;> rfl
  · rfl
@[simp] theorem adcMove_outacc (r : Option Word) (s : State) : (adcMove r s).outacc = s.outacc := by
  unfold adcMove; split
  · split <;> rfl
  · rfl
@[simp] theorem adcMove_upc (r : Option Word) (s : State) : (adcMove r s).upc = s.upc := by
  unfold adcMove; split
  · split <;> rfl
  · rfl
@[simp] theorem adcMove_fault (r : Option Word) (s : State) : (adcMove r s).fault = s.fault := by
  unfold adcMove; split
  · split <;> rfl
  · rfl
@[simp] theorem adcMove_tmr (r : Option Word) (s : State) : (adcMove r s).tmr = s.tmr := by
  unfold adcMove; split
  · split <;> rfl
  · rfl
@[simp] theorem adcMove_port (r : Option Word) (s : State) : (adcMove r s).port = s.port := by
  unfold adcMove; split
  · split <;> rfl
  · rfl
@[simp] theorem adcMove_rom (r : Option Word) (s : State) : (adcMove r s).rom = s.rom := by
  unfold adcMove; split
  · split <;> rfl
  · rfl
@[simp] theorem adcMove_cfg (r : Option Word) (s : State) : (adcMove r s).cfg = s.cfg := by
  unfold adcMove; split
  · split <;> rfl
  · rfl
@[simp] theorem adcMove_rst (r : Option Word) (s : State) : (adcMove r s).rst = s.rst := by
  unfold adcMove; split
  · split <;> rfl
  · rfl
@[simp] theorem adcMove_events (r : Option Word) (s : State) : (adcMove r s).events = s.events := by
  unfold adcMove; split
  · split <;> rfl
  · rfl
@[simp] theorem adcMove_inputs (r : Option Word) (s : State) : (adcMove r s).inputs = s.inputs := by
  unfold adcMove; split
  · split <;> rfl
  · rfl
@[simp] theorem adcMove_moment (r : Option Word) (s : State) : (adcMove r s).moment = s.moment := by
  unfold adcMove; split
  · split <;> rfl
  · rfl
@[simp] theorem adcMove_none (s : State) : adcMove none s = s := rfl
theorem adcMove_idle (r : Option Word) (s : State) (h : s.adc.busy = false) : adcMove r s = s := by
  cases r <;> simp [adcMove, h]
theorem adcMove_busy_adc (x : Word) (s : State) (h : s.adc.busy = true) :
    (adcMove (some x) s).adc = { s.adc with busy := false, done := true, result := x } := by
  simp [adcMove, h]
@[simp] theorem agentsMove_osc (e : EnvMove) (s : State) : (agentsMove e s).osc = s.osc := by
  simp [agentsMove]
@[simp] theorem agentsMove_slots (e : EnvMove) (s : State) : (agentsMove e s).slots = s.slots := by
  simp [agentsMove]
@[simp] theorem agentsMove_ch (e : EnvMove) (s : State) : (agentsMove e s).ch = s.ch := by
  simp [agentsMove]
@[simp] theorem agentsMove_tc (e : EnvMove) (s : State) : (agentsMove e s).tc = s.tc := by
  simp [agentsMove]
@[simp] theorem agentsMove_glat (e : EnvMove) (s : State) : (agentsMove e s).glat = s.glat := by
  simp [agentsMove]
@[simp] theorem agentsMove_mapout (e : EnvMove) (s : State) : (agentsMove e s).mapout = s.mapout := by
  simp [agentsMove]
@[simp] theorem agentsMove_outacc (e : EnvMove) (s : State) : (agentsMove e s).outacc = s.outacc := by
  simp [agentsMove]
@[simp] theorem agentsMove_upc (e : EnvMove) (s : State) : (agentsMove e s).upc = s.upc := by
  simp [agentsMove]
@[simp] theorem agentsMove_fault (e : EnvMove) (s : State) : (agentsMove e s).fault = s.fault := by
  simp [agentsMove]
@[simp] theorem agentsMove_port (e : EnvMove) (s : State) : (agentsMove e s).port = s.port := by
  simp [agentsMove]
@[simp] theorem agentsMove_rom (e : EnvMove) (s : State) : (agentsMove e s).rom = s.rom := by
  simp [agentsMove]
@[simp] theorem agentsMove_cfg (e : EnvMove) (s : State) : (agentsMove e s).cfg = s.cfg := by
  simp [agentsMove]
@[simp] theorem agentsMove_rst (e : EnvMove) (s : State) : (agentsMove e s).rst = s.rst := by
  simp [agentsMove]
@[simp] theorem agentsMove_events (e : EnvMove) (s : State) : (agentsMove e s).events = s.events := by
  simp [agentsMove]
@[simp] theorem agentsMove_inputs (e : EnvMove) (s : State) : (agentsMove e s).inputs = s.inputs := by
  simp [agentsMove]
@[simp] theorem agentsMove_moment (e : EnvMove) (s : State) : (agentsMove e s).moment = s.moment := by
  simp [agentsMove]
@[simp] theorem agentsMove_tmr (e : EnvMove) (s : State) :
    (agentsMove e s).tmr = { s.tmr with elapsed := s.tmr.elapsed || (e.timerElapses && s.tmr.running) } := by
  simp [agentsMove]

/-! ### Voices -/

@[simp] theorem perVoice_get_set_same {α : Type} (t : PerVoice α) (v : Voice) (x : α) :
    PerVoice.get (PerVoice.set t v x) v = x := by
  cases v <;> rfl

theorem perVoice_get_set_other {α : Type} (t : PerVoice α) (u v : Voice) (x : α) (h : u ≠ v) :
    PerVoice.get (PerVoice.set t v x) u = PerVoice.get t u := by
  cases u <;> cases v <;> first | rfl | exact absurd rfl h

@[simp] theorem perVoice_set_set {α : Type} (t : PerVoice α) (v : Voice) (x y : α) :
    PerVoice.set (PerVoice.set t v x) v y = PerVoice.set t v y := by
  cases v <;> rfl

@[simp] theorem perVoice_set_get {α : Type} (t : PerVoice α) (v : Voice) :
    PerVoice.set t v (PerVoice.get t v) = t := by
  cases v <;> rfl

theorem perVoice_set_comm {α : Type} (t : PerVoice α) (u v : Voice) (x y : α) (h : u ≠ v) :
    PerVoice.set (PerVoice.set t u x) v y = PerVoice.set (PerVoice.set t v y) u x := by
  cases u <;> cases v <;> first | rfl | exact absurd rfl h

theorem perVoice_ext {α : Type} (t t' : PerVoice α) (h : ∀ v, PerVoice.get t v = PerVoice.get t' v) : t = t' := by
  obtain ⟨a, b, c⟩ := t
  obtain ⟨a', b', c'⟩ := t'
  have h0 : a = a' := h .v0
  have h1 : b = b' := h .v1
  have h2 : c = c' := h .v2
  rw [h0, h1, h2]

end Sys2Proof.Machine
end

