-- ==== Sys2Proof/Laws/Ops.lean ====
section
/-! SUPPORT. For each shared operation, one lemma that says once everything it can do; proofs cite these instead of
unfolding the operation. -/

namespace Sys2Proof.Machine

/-! ### Outcomes -/

@[simp] theorem mapNext_next (f : State → State) (s : State) : mapNext f (.next s) = .next (f s) := rfl
@[simp] theorem mapNext_fault (f : State → State) (r : Fault) : mapNext f (.fault r) = .fault r := rfl
@[simp] theorem mapNext_refused (f : State → State) (r : Refusal) : mapNext f (.refused r) = .refused r := rfl

theorem mapNext_eq_next {f : State → State} {o : Result} {t : State} (h : mapNext f o = .next t) :
    ∃ s, o = .next s ∧ t = f s := by
  cases o with
  | next s => exact ⟨s, rfl, by simpa using h.symm⟩
  | fault r => simp at h
  | refused r => simp at h

/-! ### The guard -/

theorem guarded_performed {g : Bool} {ph : Nibble} {s : State} (p : Result) (h : guardPasses g ph s = true) :
    guarded g ph s p = p := by
  simp [guarded, h]

theorem guarded_skipped {g : Bool} {ph : Nibble} {s : State} (p : Result) (h : guardPasses g ph s = false) :
    guarded g ph s p = .next (advance s) := by
  simp [guarded, h]

/-- A guarded word is skipped or performed. -/
theorem guarded_cases {g : Bool} {ph : Nibble} {s t : State} {p : Result} (h : guarded g ph s p = .next t) :
    (guardPasses g ph s = false ∧ t = advance s) ∨ (guardPasses g ph s = true ∧ p = .next t) := by
  cases hg : guardPasses g ph s with
  | false => exact .inl ⟨rfl, by simpa [guarded, hg] using h.symm⟩
  | true => exact .inr ⟨rfl, by simpa [guarded, hg] using h⟩

/-- The guard looks at the tick counter alone. -/
theorem guardPasses_of_tc {g : Bool} {ph : Nibble} {s t : State} (h : t.tc = s.tc) :
    guardPasses g ph t = guardPasses g ph s := by
  simp [guardPasses, phase, h]

@[simp] theorem guardPasses_off (ph : Nibble) (s : State) : guardPasses false ph s = true := by
  simp [guardPasses]

theorem guardPasses_on (ph : Nibble) (s : State) : guardPasses true ph s = (ph == phase s) := by
  simp [guardPasses]

/-- The phase as a number (10_state.md R27). -/
theorem phase_toNat (s : State) : (phase s).toNat = s.tc.toNat % 16 := by
  simp [phase, BitVec.extractLsb'_toNat]

/-! ### Bits of the output accumulator -/

/-- `setBit` writes one bit (40_oscillator.md R100). -/
theorem setBit_getLsbD (b : Byte) (i j : Fin 8) (x : Bool) :
    (setBit b i x).getLsbD j.val = if j = i then x else b.getLsbD j.val := by
  have hj : j.val < 8 := j.isLt
  have hb : (1#8 <<< i.val).getLsbD j.val = decide (j = i) := by
    fin_cases i <;> fin_cases j <;> decide
  cases x with
  | true =>
    simp only [setBit, if_true, BitVec.getLsbD_or, hb]
    by_cases h : j = i <;> simp [h]
  | false =>
    simp only [setBit, Bool.false_eq_true, if_false, BitVec.getLsbD_and, BitVec.getLsbD_not, hb]
    by_cases h : j = i <;> simp [h, hj]

/-! ### The storage spaces -/

theorem slotAt_eq_some {s : State} {i : Nat} {x : Slot} (h : slotAt s i = some x) :
    i < s.slots.length ∧ s.slots[i]? = some x := by
  have h' : s.slots[i]? = some x := h
  exact ⟨(List.getElem?_eq_some_iff.mp h').1, h'⟩

/-- A slot that exists can be read. -/
theorem readSlot_of_lt {s : State} {i : Nat} (h : i < s.slots.length) : readSlot s i = some (s.slots[i].value) := by
  simp [readSlot, slotAt, h]

/-- A slot that can be read exists. -/
theorem readSlot_eq_some {s : State} {i : Nat} {x : Word} (h : readSlot s i = some x) : i < s.slots.length := by
  by_contra hn
  have hnone : s.slots[i]? = none := List.getElem?_eq_none (by omega)
  simp [readSlot, slotAt, hnone] at h

theorem readSlot_eq_none {s : State} {i : Nat} (h : readSlot s i = none) : s.slots.length ≤ i := by
  by_contra hn
  rw [readSlot_of_lt (by omega)] at h
  simp at h

/-- A slot read looks at the sample buffer alone. -/
theorem readSlot_of_slots {s t : State} (h : t.slots = s.slots) (i : Nat) : readSlot t i = readSlot s i := by
  simp [readSlot, slotAt, h]

/-! ### The mapper -/

/-- What the index check answers (41_mapper.md R124). -/
theorem selectIndex_cases (policy : IndexPolicy) (len index : Nat) :
    (index < len ∧ selectIndex policy len index = some index)
      ∨ (len ≤ index ∧ policy = .fault ∧ selectIndex policy len index = none)
      ∨ (len ≤ index ∧ policy = .clamp ∧ selectIndex policy len index = some (len - 1)) := by
  by_cases h : index < len
  · exact .inl ⟨h, by simp [selectIndex, h]⟩
  · cases policy
    · exact .inr (.inl ⟨by omega, rfl, by simp [selectIndex, h]⟩)
    · exact .inr (.inr ⟨by omega, rfl, by simp [selectIndex, h]⟩)

/-- Index 0 is selected exactly when the two period controls sum to less than 4 (41_mapper.md R123); then both are below
4 (20_memory.md R60, log 22). -/
theorem mapIndex_eq_zero_iff (vp gp : Word) : mapIndex vp gp = 0 ↔ vp.toNat + gp.toNat < 4 := by
  unfold mapIndex
  omega

theorem mapIndex_le (vp gp : Word) : mapIndex vp gp ≤ 32767 := by
  have h1 := vp.isLt
  have h2 := gp.isLt
  unfold mapIndex
  omega

theorem sixteen_le_mapDivisor (vw gw : Word) : 16 ≤ mapDivisor vw gw := by
  have h : 1 * 1 ≤ (1 + vw.toNat / 16) * (1 + gw.toNat / 16) := Nat.mul_le_mul (by omega) (by omega)
  unfold mapDivisor
  omega

/-- The pulse width fits 16 bits (41_mapper.md R125). -/
theorem mapPulse_toNat (period vw gw : Word) :
    (mapPulse period vw gw).toNat = period.toNat * 8 / mapDivisor vw gw := by
  have hp := period.isLt
  have h : period.toNat * 8 / mapDivisor vw gw ≤ period.toNat * 8 / 16 :=
    Nat.div_le_div_left (sixteen_le_mapDivisor vw gw) (by decide)
  have h' : period.toNat * 8 / mapDivisor vw gw < 2 ^ 16 := by omega
  unfold mapPulse
  rw [BitVec.toNat_ofNat, Nat.mod_eq_of_lt h']

theorem two_mul_mapPulse_le (period vw gw : Word) : 2 * (mapPulse period vw gw).toNat ≤ period.toNat := by
  have h : period.toNat * 8 / mapDivisor vw gw ≤ period.toNat * 8 / 16 :=
    Nat.div_le_div_left (sixteen_le_mapDivisor vw gw) (by decide)
  rw [mapPulse_toNat]
  omega

/-- The state a completed `MAP` leaves. -/
def afterMap (i : Nat) (period vw : Word) (s : State) : State :=
  advance (record (.tblRead (BitVec.ofNat 16 i) period)
    { s with mapout := { p := period, w := mapPulse period vw s.glat.gw, valid := true } })

/-- What `MAP` with a valid `GLAT` can do: record `IDX`, or complete with a table entry. -/
theorem mapVoice_cases {v : Voice} {s t : State} (h : mapVoice v s = .next t) :
    ∃ vp vw, readSlot s (voiceSlotP s v) = some vp ∧ readSlot s (voiceSlotW s v) = some vw ∧
      ((s.cfg.table.length ≤ mapIndex vp s.glat.gp ∧ s.cfg.indexPolicy = .fault
          ∧ t = raiseFault .idx (BitVec.ofNat 16 (mapIndex vp s.glat.gp)) s)
        ∨ ∃ i period, i ≤ 32767 ∧ s.cfg.table[i]? = some period
          ∧ ((mapIndex vp s.glat.gp < s.cfg.table.length ∧ i = mapIndex vp s.glat.gp)
            ∨ (s.cfg.table.length ≤ mapIndex vp s.glat.gp ∧ s.cfg.indexPolicy = .clamp
                ∧ i = s.cfg.table.length - 1))
          ∧ t = afterMap i period vw s) := by
  unfold mapVoice at h
  split at h
  · rename_i vp vw hp hw
    refine ⟨vp, vw, hp, hw, ?_⟩
    have hle := mapIndex_le vp s.glat.gp
    have finish : ∀ i, i ≤ 32767 → mapAt i vw s.glat.gw s = .next t →
        ∃ period, s.cfg.table[i]? = some period ∧ t = afterMap i period vw s := by
      intro i _ hm
      unfold mapAt at hm
      split at hm
      · rename_i period hper
        exact ⟨period, hper, by simpa [afterMap] using hm.symm⟩
      · cases hm
    obtain ⟨hlt, hs⟩ | ⟨hge, hpol, hs⟩ | ⟨hge, hpol, hs⟩ :=
      selectIndex_cases s.cfg.indexPolicy (tableLen s) (mapIndex vp s.glat.gp)
    · simp only [mapRaw, hs] at h
      obtain ⟨period, hper, ht⟩ := finish _ hle h
      exact .inr ⟨_, period, hle, hper, .inl ⟨hlt, rfl⟩, ht⟩
    · simp only [mapRaw, hs] at h
      exact .inl ⟨hge, hpol, by simpa using h.symm⟩
    · simp only [mapRaw, hs] at h
      have hle' : tableLen s - 1 ≤ 32767 := by omega
      obtain ⟨period, hper, ht⟩ := finish _ hle' h
      exact .inr ⟨_, period, hle', hper, .inr ⟨hge, hpol, rfl⟩, ht⟩
  · cases h
  · cases h

/-- `MAP` with a valid `GLAT`, its slots there and its index in range, completes. -/
theorem mapVoice_in_range {v : Voice} {s : State} {vp vw period : Word}
    (hp : readSlot s (voiceSlotP s v) = some vp) (hw : readSlot s (voiceSlotW s v) = some vw)
    (ht : s.cfg.table[mapIndex vp s.glat.gp]? = some period) :
    mapVoice v s = .next (afterMap (mapIndex vp s.glat.gp) period vw s) := by
  have hlt : mapIndex vp s.glat.gp < tableLen s := (List.getElem?_eq_some_iff.mp ht).1
  simp [mapVoice, hp, hw, mapRaw, selectIndex, hlt, mapAt, tableAt, ht, afterMap]

/-! ### The other operations that can do more than one thing -/

theorem beginSample_cases (s : State) :
    (s.cfg.adcStartGated = true ∧ s.adc.busy = true ∧ beginSample s = s)
      ∨ ((s.cfg.adcStartGated = false ∨ s.adc.busy = false) ∧ beginSample s = adcStart s.ch s) := by
  unfold beginSample
  cases s.cfg.adcStartGated <;> cases s.adc.busy <;> simp

theorem readGlobals_cases {s t : State} (h : readGlobals s = .next t) :
    ∃ gp gw, readSlot s s.cfg.gslotP = some gp ∧ readSlot s s.cfg.gslotW = some gw ∧
      t = advance { s with glat := { gp := gp, gw := gw, valid := true } } := by
  unfold readGlobals at h
  split at h
  · rename_i gp gw hp hw
    exact ⟨gp, gw, hp, hw, by simpa using h.symm⟩
  · cases h
  · cases h

theorem storeSample_cases {s t : State} (h : storeSample s = .next t) :
    s.ch.toNat < s.slots.length ∧
      t = advance { writeSlot s s.ch.toNat s.adc.result with ch := nextChannel s } := by
  unfold storeSample at h
  split at h
  · rename_i x hx
    exact ⟨(slotAt_eq_some hx).1, by simpa using h.symm⟩
  · cases h

/-! ### What an instruction can do -/

/-- A word whose guard does not match is skipped. -/
theorem exec_skipped {i : Instr} {s : State} (h : guardPasses i.guardOn i.guardPhase s = false) :
    exec i s = .next (advance s) := by
  cases i <;> exact guarded_skipped _ h

theorem exec_smpBegin {g : Bool} {ph : Nibble} {s : State} (h : guardPasses g ph s = true) :
    exec (.smpBegin g ph) s = .next (advance (beginSample s)) := guarded_performed _ h

theorem exec_tickWait {g : Bool} {ph : Nibble} {s : State} (h : guardPasses g ph s = true) :
    exec (.tickWait g ph) s = if s.tmr.elapsed then .next (advance (tickClear s)) else .next s :=
  guarded_performed _ h

theorem exec_oscTick {v : Voice} {g : Bool} {ph : Nibble} {s : State} (h : guardPasses g ph s = true) :
    exec (.oscTick v g ph) s = .next (advance (tickVoice v s)) := guarded_performed _ h

theorem exec_portWrite {g : Bool} {ph : Nibble} {s : State} (h : guardPasses g ph s = true) :
    exec (.portWrite g ph) s = .next (advance (portOut s.outacc s)) := guarded_performed _ h

theorem exec_globalRead {g : Bool} {ph : Nibble} {s : State} (h : guardPasses g ph s = true) :
    exec (.globalRead g ph) s = readGlobals s := guarded_performed _ h

theorem exec_map {v : Voice} {g : Bool} {ph : Nibble} {s : State} (h : guardPasses g ph s = true) :
    exec (.map v g ph) s =
      if s.glat.valid then mapVoice v s else .next (raiseFault .latch (encode (.map v g ph)) s) :=
  guarded_performed _ h

theorem exec_oscSet {v : Voice} {g : Bool} {ph : Nibble} {s : State} (h : guardPasses g ph s = true) :
    exec (.oscSet v g ph) s =
      if s.mapout.valid then .next (advance (setVoice v s))
      else .next (raiseFault .latch (encode (.oscSet v g ph)) s) :=
  guarded_performed _ h

theorem exec_smpComplete {g : Bool} {ph : Nibble} {s : State} (h : guardPasses g ph s = true) :
    exec (.smpComplete g ph) s = if s.adc.done then storeSample s else .next s := guarded_performed _ h

theorem exec_cntInc {g : Bool} {ph : Nibble} {s : State} (h : guardPasses g ph s = true) :
    exec (.cntInc g ph) s = .next (advance { s with tc := s.tc + 1 }) := guarded_performed _ h

theorem exec_loop {g : Bool} {ph : Nibble} {s : State} (h : guardPasses g ph s = true) :
    exec (.loop g ph) s = .next { s with upc := 0 } := guarded_performed _ h

/-- Everything `exec` can do when it answers a next state, one case for each instruction and path. -/
theorem exec_cases {i : Instr} {s t : State} (h : exec i s = .next t) :
    (guardPasses i.guardOn i.guardPhase s = false ∧ t = advance s)
    ∨ (guardPasses i.guardOn i.guardPhase s = true ∧
        ((∃ g ph, i = .smpBegin g ph ∧ t = advance (beginSample s))
        ∨ (∃ g ph, i = .tickWait g ph ∧ s.tmr.elapsed = true ∧ t = advance (tickClear s))
        ∨ (∃ g ph, i = .tickWait g ph ∧ s.tmr.elapsed = false ∧ t = s)
        ∨ (∃ v g ph, i = .oscTick v g ph ∧ t = advance (tickVoice v s))
        ∨ (∃ g ph, i = .portWrite g ph ∧ t = advance (portOut s.outacc s))
        ∨ (∃ g ph, i = .globalRead g ph ∧ readGlobals s = .next t)
        ∨ (∃ v g ph, i = .map v g ph ∧ s.glat.valid = true ∧ mapVoice v s = .next t)
        ∨ (∃ v g ph, i = .map v g ph ∧ s.glat.valid = false ∧ t = raiseFault .latch (encode i) s)
        ∨ (∃ v g ph, i = .oscSet v g ph ∧ s.mapout.valid = true ∧ t = advance (setVoice v s))
        ∨ (∃ v g ph, i = .oscSet v g ph ∧ s.mapout.valid = false ∧ t = raiseFault .latch (encode i) s)
        ∨ (∃ g ph, i = .smpComplete g ph ∧ s.adc.done = true ∧ storeSample s = .next t)
        ∨ (∃ g ph, i = .smpComplete g ph ∧ s.adc.done = false ∧ t = s)
        ∨ (∃ g ph, i = .cntInc g ph ∧ t = advance { s with tc := s.tc + 1 })
        ∨ (∃ g ph, i = .loop g ph ∧ t = { s with upc := 0 }))) := by
  cases hpass : guardPasses i.guardOn i.guardPhase s with
  | false =>
    rw [exec_skipped hpass] at h
    exact .inl ⟨rfl, by simpa using h.symm⟩
  | true =>
    refine .inr ⟨rfl, ?_⟩
    cases i with
    | smpBegin g ph =>
      rw [exec_smpBegin (g := g) (ph := ph) hpass] at h
      exact .inl ⟨g, ph, rfl, by simpa using h.symm⟩
    | tickWait g ph =>
      rw [exec_tickWait (g := g) (ph := ph) hpass] at h
      cases he : s.tmr.elapsed <;> simp [he] at h
      · exact .inr (.inr (.inl ⟨g, ph, rfl, rfl, h.symm⟩))
      · exact .inr (.inl ⟨g, ph, rfl, rfl, h.symm⟩)
    | oscTick v g ph =>
      rw [exec_oscTick (v := v) (g := g) (ph := ph) hpass] at h
      exact .inr (.inr (.inr (.inl ⟨v, g, ph, rfl, by simpa using h.symm⟩)))
    | portWrite g ph =>
      rw [exec_portWrite (g := g) (ph := ph) hpass] at h
      exact .inr (.inr (.inr (.inr (.inl ⟨g, ph, rfl, by simpa using h.symm⟩))))
    | globalRead g ph =>
      rw [exec_globalRead (g := g) (ph := ph) hpass] at h
      exact .inr (.inr (.inr (.inr (.inr (.inl ⟨g, ph, rfl, h⟩)))))
    | map v g ph =>
      rw [exec_map (v := v) (g := g) (ph := ph) hpass] at h
      cases he : s.glat.valid <;> simp [he] at h
      · exact .inr (.inr (.inr (.inr (.inr (.inr (.inr (.inl ⟨v, g, ph, rfl, rfl, h.symm⟩)))))))
      · exact .inr (.inr (.inr (.inr (.inr (.inr (.inl ⟨v, g, ph, rfl, rfl, h⟩))))))
    | oscSet v g ph =>
      rw [exec_oscSet (v := v) (g := g) (ph := ph) hpass] at h
      cases he : s.mapout.valid <;> simp [he] at h
      · exact .inr (.inr (.inr (.inr (.inr (.inr (.inr (.inr (.inr (.inl ⟨v, g, ph, rfl, rfl, h.symm⟩)))))))))
      · exact .inr (.inr (.inr (.inr (.inr (.inr (.inr (.inr (.inl ⟨v, g, ph, rfl, rfl, h.symm⟩))))))))
    | smpComplete g ph =>
      rw [exec_smpComplete (g := g) (ph := ph) hpass] at h
      cases he : s.adc.done <;> simp [he] at h
      · exact .inr (.inr (.inr (.inr (.inr (.inr (.inr (.inr (.inr (.inr (.inr (.inl ⟨g, ph, rfl, rfl, h.symm⟩)))))))))))
      · exact .inr (.inr (.inr (.inr (.inr (.inr (.inr (.inr (.inr (.inr (.inl ⟨g, ph, rfl, rfl, h⟩))))))))))
    | cntInc g ph =>
      rw [exec_cntInc (g := g) (ph := ph) hpass] at h
      exact .inr (.inr (.inr (.inr (.inr (.inr (.inr (.inr (.inr (.inr (.inr (.inr (.inl ⟨g, ph, rfl, by simpa using h.symm⟩))))))))))))
    | loop g ph =>
      rw [exec_loop (g := g) (ph := ph) hpass] at h
      exact .inr (.inr (.inr (.inr (.inr (.inr (.inr (.inr (.inr (.inr (.inr (.inr (.inr ⟨g, ph, rfl, by simpa using h.symm⟩))))))))))))

/-- No instruction touches the micro-program, the parameters, reset or the environment's moves. -/
theorem exec_keeps_environment {i : Instr} {s t : State} (h : exec i s = .next t) :
    t.rom = s.rom ∧ t.cfg = s.cfg ∧ t.rst = s.rst ∧ t.inputs = s.inputs ∧ t.moment = s.moment := by
  obtain ⟨-, rfl⟩ | ⟨-, h⟩ := exec_cases h
  · simp
  · obtain ⟨_, _, -, rfl⟩ | ⟨_, _, -, -, rfl⟩ | ⟨_, _, -, -, rfl⟩ | ⟨_, _, _, -, rfl⟩ | ⟨_, _, -, rfl⟩ | ⟨_, _, -, h⟩
      | ⟨_, _, _, -, -, h⟩ | ⟨_, _, _, -, -, rfl⟩ | ⟨_, _, _, -, -, rfl⟩ | ⟨_, _, _, -, -, rfl⟩ | ⟨_, _, -, -, h⟩
      | ⟨_, _, -, -, rfl⟩ | ⟨_, _, -, rfl⟩ | ⟨_, _, -, rfl⟩ := h
    · obtain ⟨-, -, he⟩ | ⟨-, he⟩ := beginSample_cases s <;> simp [he]
    · simp
    · simp
    · simp
    · simp
    · obtain ⟨_, _, -, -, rfl⟩ := readGlobals_cases h; simp
    · obtain ⟨_, _, -, -, ⟨-, -, rfl⟩ | ⟨_, _, -, -, -, rfl⟩⟩ := mapVoice_cases h <;> simp [afterMap]
    · simp
    · simp
    · simp
    · obtain ⟨-, rfl⟩ := storeSample_cases h; simp
    · simp
    · simp
    · simp

/-! ### What a step can do -/

/-- One attempt of the block: halted, an illegal word, or an instruction. -/
theorem blockStep_cases {s t : State} (h : blockStep s = .next t) :
    (s.fault.cause ≠ .none ∧ t = s)
      ∨ (s.fault.cause = .none ∧ ∃ e, decode (fetch s) = .error e ∧ t = raiseFault .illegal (fetch s) s)
      ∨ (s.fault.cause = .none ∧ ∃ i, decode (fetch s) = .ok i ∧ exec i s = .next t) := by
  unfold blockStep at h
  split at h
  · rename_i hc
    exact .inl ⟨hc, by simpa using h.symm⟩
  · rename_i hc
    have hc' : s.fault.cause = .none := by simpa using hc
    split at h
    · rename_i e he
      exact .inr (.inl ⟨hc', e, he, by simpa using h.symm⟩)
    · rename_i i hi
      exact .inr (.inr ⟨hc', i, hi, h⟩)

theorem blockStep_halted {s : State} (h : s.fault.cause ≠ .none) : blockStep s = .next s := by
  simp [blockStep, h]

theorem blockStep_running {s : State} {i : Instr} (hc : s.fault.cause = .none) (hi : decode (fetch s) = .ok i) :
    blockStep s = exec i s := by
  simp [blockStep, hc, hi]

/-- A step out of reset: the block's attempt, then the environment. -/
theorem step_out_of_reset {s : State} (h : s.rst = false) : step s = mapNext environment (blockStep s) := by
  simp [step, machineStep, h]

/-- A step while reset is held: the environment alone. -/
theorem step_in_reset {s : State} (h : s.rst = true) : step s = heldStep (nextMove s) (consumeMove s) := by
  simp [step, machineStep, h]

/-- What the environment can do out of reset. -/
theorem environment_cases (s : State) :
    ((nextMove s).host = .reset ∧ environment s = applyReset (consumeMove s))
      ∨ ((nextMove s).host ≠ .reset ∧ environment s = agentsMove (nextMove s) (consumeMove s)) := by
  unfold environment environmentStep
  cases (nextMove s).host <;> simp

/-- What a move can do while reset is held. -/
theorem heldStep_cases {e : EnvMove} {s t : State} (h : heldStep e s = .next t) :
    (e.host = .reset ∧ t = s)
      ∨ (∃ cfg rom, e.host = .supply cfg rom ∧ t = State.atReset cfg rom s.inputs s.moment)
      ∨ (e.host = .idle ∧ paramsLegal s.cfg = true ∧ t = agentsMove e (releaseReset s)) := by
  unfold heldStep at h
  split at h
  · rename_i he
    exact .inl ⟨he, by simpa using h.symm⟩
  · rename_i cfg rom he
    exact .inr (.inl ⟨cfg, rom, he, by simpa using h.symm⟩)
  · rename_i he
    split at h
    · rename_i hl
      exact .inr (.inr ⟨he, hl, by simpa using h.symm⟩)
    · cases h

/-- Everything a step can do. -/
theorem step_cases {s t : State} (h : step s = .next t) :
    (s.rst = true ∧ heldStep (nextMove s) (consumeMove s) = .next t)
      ∨ (s.rst = false ∧ ∃ u, blockStep s = .next u ∧ t = environment u) := by
  cases hr : s.rst with
  | true => exact .inl ⟨rfl, by rw [← step_in_reset hr]; exact h⟩
  | false =>
    rw [step_out_of_reset hr] at h
    obtain ⟨u, hu, ht⟩ := mapNext_eq_next h
    exact .inr ⟨rfl, u, hu, ht⟩

end Sys2Proof.Machine
end

