-- ==== Sys2Proof/Laws/PerInstr.lean ====
section
/-! SUPPORT. A property of every instruction as syntax, one lemma for each constructor of `Instr`: the fields its word has
(30_encoding.md R70). -/

namespace Sys2Proof.Laws.EncodedFields

/-- The word of an instruction has the guard of the instruction in G and PH, and 0 in Z (30_encoding.md R70). -/
def Statement (i : Instr) : Prop :=
  fieldG (encode i) = i.guardOn ∧ fieldPh (encode i) = i.guardPhase ∧ fieldZ (encode i) = 0

/-- A word built by `encodeFields` has the fields it was built from. -/
theorem of_encodeFields (op a : Nibble) (g : Bool) (ph : Nibble) :
    fieldG (encodeFields op a g ph) = g ∧ fieldPh (encodeFields op a g ph) = ph
      ∧ fieldZ (encodeFields op a g ph) = 0 := by
  simp

theorem smpBegin (g : Bool) (ph : Nibble) : Statement (.smpBegin g ph) := of_encodeFields _ _ g ph
theorem tickWait (g : Bool) (ph : Nibble) : Statement (.tickWait g ph) := of_encodeFields _ _ g ph
theorem oscTick (v : Voice) (g : Bool) (ph : Nibble) : Statement (.oscTick v g ph) := of_encodeFields _ _ g ph
theorem portWrite (g : Bool) (ph : Nibble) : Statement (.portWrite g ph) := of_encodeFields _ _ g ph
theorem globalRead (g : Bool) (ph : Nibble) : Statement (.globalRead g ph) := of_encodeFields _ _ g ph
theorem map (v : Voice) (g : Bool) (ph : Nibble) : Statement (.map v g ph) := of_encodeFields _ _ g ph
theorem oscSet (v : Voice) (g : Bool) (ph : Nibble) : Statement (.oscSet v g ph) := of_encodeFields _ _ g ph
theorem smpComplete (g : Bool) (ph : Nibble) : Statement (.smpComplete g ph) := of_encodeFields _ _ g ph
theorem cntInc (g : Bool) (ph : Nibble) : Statement (.cntInc g ph) := of_encodeFields _ _ g ph
theorem loop (g : Bool) (ph : Nibble) : Statement (.loop g ph) := of_encodeFields _ _ g ph

end Sys2Proof.Laws.EncodedFields
end

