-- ==== Sys2Proof/Laws/Storage.lean ====
section
/-! SUPPORT. Every operation keeps the form of the storage (20_memory.md R51): the sample buffer has its `N_CH` slots. -/

namespace Sys2Proof.Machine

theorem Memory.wf_iff (s : State) : Memory.wf s = true ↔ s.slots.length = s.cfg.nCh := by
  simp [Memory.wf]

/-- The form looks at the sample buffer and `N_CH` alone. -/
theorem Memory.wf_of_eq {s t : State} (hs : t.slots = s.slots) (hc : t.cfg = s.cfg) (h : Memory.wf s = true) :
    Memory.wf t = true := by
  simpa [Memory.wf, hs, hc] using h

theorem writeSlot_wf {s : State} (i : Nat) (x : Word) (h : Memory.wf s = true) : Memory.wf (writeSlot s i x) = true := by
  rw [Memory.wf_iff] at h ⊢
  simpa using h

theorem atReset_wf (c : Params) (r : Rom) (es : List EnvMove) (m : Nat) : Memory.wf (State.atReset c r es m) = true := by
  simp [Memory.wf]

theorem reset_wf : Memory.wf State.reset = true := atReset_wf _ _ _ _

/-- One slot of a written buffer (42_sampler.md R145). -/
theorem writeSlot_getElem? (s : State) (i j : Nat) (x : Word) (h : i < s.slots.length) :
    (writeSlot s i x).slots[j]? = if j = i then some { value := x, valid := true } else s.slots[j]? := by
  by_cases hj : j = i
  · subst hj; simp [h]
  · simp [hj, List.getElem?_set_ne (Ne.symm hj)]

/-- No instruction changes the number of slots. -/
theorem exec_keeps_wf {i : Instr} {s t : State} (h : exec i s = .next t) (hw : Memory.wf s = true) :
    Memory.wf t = true := by
  obtain ⟨-, hc, -⟩ := exec_keeps_environment h
  have hlen : t.slots.length = s.slots.length := by
    obtain ⟨-, rfl⟩ | ⟨-, h⟩ := exec_cases h
    · simp
    · obtain ⟨_, _, -, rfl⟩ | ⟨_, _, -, -, rfl⟩ | ⟨_, _, -, -, rfl⟩ | ⟨_, _, _, -, rfl⟩ | ⟨_, _, -, rfl⟩ | ⟨_, _, -, h⟩
        | ⟨_, _, _, -, -, h⟩ | ⟨_, _, _, -, -, rfl⟩ | ⟨_, _, _, -, -, rfl⟩ | ⟨_, _, _, -, -, rfl⟩ | ⟨_, _, -, -, h⟩
        | ⟨_, _, -, -, rfl⟩ | ⟨_, _, -, rfl⟩ | ⟨_, _, -, rfl⟩ := h
      · obtain ⟨-, -, he⟩ | ⟨-, he⟩ := beginSample_cases s <;> simp [he]
      · simp
      · simp
      · simp
      · simp
      · obtain ⟨_, _, -, -, rfl⟩ := readGlobals_cases h; simp
      · obtain ⟨_, _, -, -, ⟨-, -, rfl⟩ | ⟨_, _, -, -, -, rfl⟩⟩ := mapVoice_cases h <;> simp [afterMap]
      · simp
      · simp
      · simp
      · obtain ⟨-, rfl⟩ := storeSample_cases h; simp
      · simp
      · simp
      · simp
  rw [Memory.wf_iff] at hw ⊢
  rw [hlen, hc, hw]

/-- No attempt of the block changes the number of slots. -/
theorem blockStep_keeps_wf {s t : State} (h : blockStep s = .next t) (hw : Memory.wf s = true) : Memory.wf t = true := by
  obtain ⟨-, rfl⟩ | ⟨-, _, -, rfl⟩ | ⟨-, _, -, h⟩ := blockStep_cases h
  · exact hw
  · exact Memory.wf_of_eq rfl rfl hw
  · exact exec_keeps_wf h hw

/-- No step changes the form of the storage. -/
theorem step_keeps_wf {s t : State} (h : step s = .next t) (hw : Memory.wf s = true) : Memory.wf t = true := by
  obtain ⟨-, h⟩ | ⟨-, u, hu, rfl⟩ := step_cases h
  · obtain ⟨-, rfl⟩ | ⟨_, _, -, rfl⟩ | ⟨-, -, rfl⟩ := heldStep_cases h
    · exact Memory.wf_of_eq rfl rfl hw
    · exact atReset_wf _ _ _ _
    · exact Memory.wf_of_eq (by simp) (by simp) hw
  · obtain ⟨-, he⟩ | ⟨-, he⟩ := environment_cases u
    · rw [he]; exact atReset_wf _ _ _ _
    · rw [he]; exact Memory.wf_of_eq (by simp) (by simp) (blockStep_keeps_wf hu hw)

end Sys2Proof.Machine
end

