-- ==== Sys2Proof/Laws/Run.lean ====
section
/-! SUPPORT. Runs of steps, steps in which the host applies no reset, fetching from the default micro-program, and the
arithmetic of one oscillator tick. -/

namespace Sys2Proof.Machine

open Sys2Proof.Safety

/-! ### Runs -/

theorem run_zero (s : State) : core.run 0 s = .next s := rfl

theorem run_succ_next {k : Nat} {s t : State} (h : step s = .next t) : core.run (k + 1) s = core.run k t := by
  have h' : core.step s = .next t := h
  simp only [Host.Core.run, h']

theorem run_succ_refused {k : Nat} {s : State} {r : Refusal} (h : step s = .refused r) :
    core.run (k + 1) s = .refused r := by
  have h' : core.step s = .refused r := h
  simp only [Host.Core.run, h']

theorem run_succ_fault {k : Nat} {s : State} {r : Fault} (h : step s = .fault r) :
    core.run (k + 1) s = .fault r := by
  have h' : core.step s = .fault r := h
  simp only [Host.Core.run, h']

theorem run_add (j k : Nat) : ∀ (s t : State), core.run j s = .next t → core.run (j + k) s = core.run k t := by
  induction j with
  | zero =>
    intro s t h
    have hs : Host.Outcome.next s = (.next t : Result) := h
    injection hs with hs
    rw [Nat.zero_add, hs]
  | succ j ih =>
    intro s t h
    cases hs : step s with
    | next u =>
      rw [run_succ_next hs] at h
      rw [Nat.add_right_comm, run_succ_next hs, ih u t h]
    | fault r =>
      rw [run_succ_fault hs] at h
      cases h
    | refused r =>
      rw [run_succ_refused hs] at h
      cases h

/-! ### Attempts of the block and the environment's moves -/

/-- An attempt of the block leaves the micro-program, the parameters, reset and the environment's moves alone. -/
theorem blockStep_keeps_environment {s u : State} (h : blockStep s = .next u) :
    u.rom = s.rom ∧ u.cfg = s.cfg ∧ u.rst = s.rst ∧ u.inputs = s.inputs ∧ u.moment = s.moment := by
  obtain ⟨-, rfl⟩ | ⟨-, _, -, rfl⟩ | ⟨-, _, -, he⟩ := blockStep_cases h
  · exact ⟨rfl, rfl, rfl, rfl, rfl⟩
  · exact ⟨rfl, rfl, rfl, rfl, rfl⟩
  · exact exec_keeps_environment he

theorem blockStep_keeps_nextMove {s u : State} (h : blockStep s = .next u) : nextMove u = nextMove s := by
  obtain ⟨-, -, -, hi, hm⟩ := blockStep_keeps_environment h
  rw [nextMove, nextMove, hi, hm]

/-- A step out of reset whose move applies no reset: the block's attempt, then the agents' moves. -/
theorem step_without_reset {s u : State} (hr : s.rst = false) (hb : blockStep s = .next u)
    (hn : (nextMove s).host ≠ .reset) : step s = .next (agentsMove (nextMove s) (consumeMove u)) := by
  rw [step_out_of_reset hr, hb, mapNext_next]
  obtain ⟨h, -⟩ | ⟨-, h⟩ := environment_cases u
  · rw [blockStep_keeps_nextMove hb] at h
    exact absurd h hn
  · rw [h, blockStep_keeps_nextMove hb]

/-- The same with the move given by the inputs. -/
theorem step_with_input {s u : State} {e : EnvMove} {rest : List EnvMove} (hr : s.rst = false)
    (hb : blockStep s = .next u) (hin : s.inputs = e :: rest) (hn : e.host ≠ .reset) :
    step s = .next (agentsMove e (consumeMove u)) := by
  have he : nextMove s = e := by simp [nextMove, hin]
  rw [step_without_reset hr hb (by rw [he]; exact hn), he]

/-! ### Configurations and the default micro-program -/

theorem paramsLegal_iff (c : Params) : paramsLegal c = true ↔ AllowedByR10 c := by
  unfold paramsLegal AllowedByR10
  simp [and_assoc]

/-- The fetch looks at the micro-program and `upc` alone. -/
theorem fetch_of_eq {s t : State} (hr : t.rom = s.rom) (hu : t.upc = s.upc) : fetch t = fetch s := by
  simp [fetch, hr, hu]

/-- The words of the default micro-program (43_scheduler.md R161), by the place they are fetched from. -/
theorem fetch_defaultRom {s : State} (hr : s.rom = Config.defaultRom) {k : Nat} (hk : k < 16) (hu : s.upc.toNat = k) :
    fetch s = Config.defaultRom[k] := by
  subst hu
  simp [fetch, hr]

/-! ### One oscillator tick -/

theorem nextCountdown_of_one {o : Osc} (h : o.c.toNat = 1) : nextCountdown o = o.p := by
  have hc : o.c = 1 := BitVec.eq_of_toNat_eq h
  simp [nextCountdown, hc]

theorem nextCountdown_of_ne_one {o : Osc} (h : o.c.toNat ≠ 1) :
    (nextCountdown o).toNat = (o.c.toNat + 65535) % 65536 := by
  have hlt := o.c.isLt
  have hsub : (o.c - 1).toNat = (o.c.toNat + 65535) % 65536 := by
    rw [BitVec.toNat_sub]
    show (65536 - 1 + o.c.toNat) % 65536 = _
    rw [Nat.add_comm]
  have hne : o.c - 1 ≠ 0 := by
    intro h0
    rw [h0] at hsub
    have : (0 : Word).toNat = 0 := rfl
    omega
  simp only [nextCountdown, hne, if_false, hsub]

end Sys2Proof.Machine
end

