-- ==== Sys2Proof/Tests/Slice0.lean ====
section
/-! SUPPORT. Tests of this model against the spec's own vectors (95_test_vectors.md) and words (30_encoding.md), and, for
each statement with hypotheses, a concrete state and operands that meet them. -/

namespace Sys2Proof.Tests

open Sys2Proof.Machine
open Sys2Proof.Safety

/-! ### Well-formedness and decoding -/

/-- 30_encoding.md R76: PH must be 0 when G = 0; the ill-formed term is refused, the guarded and the unguarded taken. -/
theorem test_wellFormed_refuses_phase_without_guard :
    (Instr.map .v0 false 4).wellFormed = false ∧ (Instr.loop false 15).wellFormed = false
      ∧ (Instr.map .v0 true 4).wellFormed = true ∧ (Instr.map .v0 false 0).wellFormed = true := by decide

/-- One word of each constructor, written out from 30_encoding.md R70 and R72 bit by bit. -/
theorem test_decode_each_constructor :
    decode 0b0001000000000000 = .ok (.smpBegin false 0) ∧ decode 0b0010000010000011 = .ok (.tickWait true 3)
      ∧ decode 0b0011001000000000 = .ok (.oscTick .v2 false 0) ∧ decode 0b0100000000000000 = .ok (.portWrite false 0)
      ∧ decode 0b0101000010001111 = .ok (.globalRead true 15) ∧ decode 0b0110000110001000 = .ok (.map .v1 true 8)
      ∧ decode 0b0111001010001100 = .ok (.oscSet .v2 true 12) ∧ decode 0b1000000010000000 = .ok (.smpComplete true 0)
      ∧ decode 0b1001000000000000 = .ok (.cntInc false 0) ∧ decode 0b1010000010000011 = .ok (.loop true 3) := by decide

/-- The illegal words of 95_test_vectors.md 2.1. -/
theorem test_decode_refuses_by_name :
    decode 0x0000 = .error .reservedOperation ∧ decode 0xB000 = .error .reservedOperation
      ∧ decode 0xF0FF = .error .reservedBits ∧ decode 0x3300 = .error .noSuchVoice ∧ decode 0x6F00 = .error .noSuchVoice
      ∧ decode 0x4100 = .error .operandNotZero ∧ decode 0x1001 = .error .phaseWithoutGuard
      ∧ decode 0x1010 = .error .reservedBits ∧ decode 0x10F0 = .error .reservedBits
      ∧ decode 0x3384 = .error .noSuchVoice := by decide

/-- 30_encoding.md R80: `MAP 0 @4` is 0x6084, `OSC_TICK 2` is 0x3200, `SMP_COMPLETE @0` is 0x8080, `LOOP` is 0xA000. -/
theorem test_encode_examples :
    encode (.map .v0 true 4) = 0x6084 ∧ encode (.oscTick .v2 false 0) = 0x3200 ∧ encode (.smpComplete true 0) = 0x8080
      ∧ encode (.loop false 0) = 0xA000 := by decide

/-- The numbering of spec/opcode_table.json, and a legal word of the table with no bits above 15. -/
theorem test_decodeTableWord : decodeTableWord 16 0x7188 = some (.oscSet .v1 true 8) ∧ decodeTableWord 16 0x0000 = none
    ∧ decodeTableWord 17 0x1000 = none := by decide

/-! ### Small states -/

/-- 512 entries, `TABLE[i] = 100 + i` (95_test_vectors.md, program P2). -/
def table512 : List Word := (List.range 512).map (fun i => BitVec.ofNat 16 (100 + i))

/-- This hardware's parameters with the OPEN ones chosen as in program P2. -/
def cfg2 : Params :=
  { nCh := 8, gslotP := 6, gslotW := 7, vslotP := { v0 := 0, v1 := 2, v2 := 4 }, vslotW := { v0 := 1, v1 := 3, v2 := 5 },
    voiceBit := { v0 := 0, v1 := 1, v2 := 2 }, indexPolicy := .fault, adcStartGated := false, table := table512,
    initPeriod := { v0 := 4, v1 := 3, v2 := 2 }, initPulse := { v0 := 2, v1 := 2, v2 := 2 },
    initCountdown := { v0 := 4, v1 := 3, v2 := 2 }, tickPeriod := 9 }

/-- A move of the timer and the ADC, the host idle. -/
def move (t : Bool) (a : Option Word) : EnvMove := { host := .idle, timerElapses := t, adcCompletes := a }

/-- Reset just released under `cfg2` with the default micro-program; no move settled. -/
def base : State :=
  { osc := oscAtReset cfg2, slots := List.replicate 8 { value := 0, valid := false }, ch := 0, tc := 0,
    glat := { gp := 0, gw := 0, valid := false }, mapout := { p := 0, w := 0, valid := false }, outacc := 0, upc := 0,
    fault := { cause := .none, info := 0, upc := 0 }, adc := { busy := false, done := false, ch := 0, result := 0 },
    tmr := { elapsed := false, running := true, period := 9 }, port := none, rom := Config.defaultRom, cfg := cfg2,
    rst := false, events := [.tmrStart 9], inputs := [], moment := 0 }

/-- `base` with one voice's registers set. -/
def withOsc (v : Voice) (p w c : Word) : State := { base with osc := PerVoice.set base.osc v { p := p, w := w, c := c } }

/-- The next state of an outcome. -/
def after (o : Result) : Option State :=
  match o with
  | .next s => some s
  | .fault _ => none
  | .refused _ => none

/-- A view of the next state of an outcome. -/
def see {α : Type} (o : Result) (f : State → α) : Option α := (after o).map f

/-! ### The vectors of 95_test_vectors.md, section 2 -/

/-- T4: reload, then compare 4 < 2. T5: no reload from 0. T7: reload 0, 0 < 1. -/
theorem test_oscTick_T4_T5_T7 :
    see (exec (.oscTick .v0 false 0) (withOsc .v0 4 2 1)) (fun t => (t.osc.v0.c, t.outacc, t.upc)) = some (4, 0, 1)
      ∧ see (exec (.oscTick .v0 false 0) (withOsc .v0 4 2 0)) (fun t => (t.osc.v0.c, t.outacc)) = some (0xFFFF, 0)
      ∧ see (exec (.oscTick .v0 false 0) (withOsc .v0 0 1 1)) (fun t => (t.osc.v0.c, t.outacc)) = some (0, 1) := by decide

/-- 2.2: `OUTACC = 0x03` and `OSC_TICK 2` with level 1 gives 0x07; 0x07 and `OSC_TICK 0` with level 0 gives 0x06. -/
theorem test_oscTick_output_bits :
    see (exec (.oscTick .v2 false 0) { withOsc .v2 4 2 2 with outacc := 0x03 }) State.outacc = some 0x07
      ∧ see (exec (.oscTick .v0 false 0) { withOsc .v0 4 2 4 with outacc := 0x07 }) State.outacc = some 0x06 := by decide

/-- S1: the countdown is kept. S3: an invalid latch raises LATCH with the word. -/
theorem test_oscSet_S1_S3 :
    see (exec (.oscSet .v0 false 0) { withOsc .v0 4 2 3 with mapout := { p := 228, w := 114, valid := true } })
        (fun t => (t.osc.v0, t.mapout.valid)) = some ({ p := 228, w := 114, c := 3 }, true)
      ∧ see (exec (.oscSet .v2 false 0) { withOsc .v2 4 2 3 with upc := 5 }) (fun t => (t.osc.v2, t.fault, t.upc))
        = some ({ p := 4, w := 2, c := 3 }, { cause := .latch, info := 0x7200, upc := 5 }, 5) := by decide

/-- A state whose four samples for voice 0 are `vp`, `vw`, `gp`, `gw`, with a short table. -/
def mapState (policy : IndexPolicy) (table : List Word) (vp vw gp gw : Word) : State :=
  { base with
    cfg := { cfg2 with table := table, indexPolicy := policy }
    slots := [{ value := vp, valid := true }, { value := vw, valid := true }]
    glat := { gp := gp, gw := gw, valid := true } }

/-- M3, M4, M8, M14: 523 at index 1, also from the controls 2 and 2 (log 22); 3520 / 19 and 3520 / 79 rounded down. -/
theorem test_map_M3_M4_M8_M14 :
    see (exec (.map .v0 false 0) (mapState .fault [440, 523] 4 0 0 0)) State.mapout = some { p := 523, w := 261, valid := true }
      ∧ see (exec (.map .v0 false 0) (mapState .fault [440, 523] 2 0 2 0)) State.mapout = some { p := 523, w := 261, valid := true }
      ∧ see (exec (.map .v0 false 0) (mapState .fault [440, 523] 0 16 0 16)) State.mapout
        = some { p := 440, w := 185, valid := true }
      ∧ see (exec (.map .v0 false 0) (mapState .fault [440, 523] 0 1023 0 0)) State.mapout
        = some { p := 440, w := 44, valid := true } := by decide

/-- X1, X2, X6 on a table of two entries: IDX with the index, the clamp to the last entry, LATCH before IDX. -/
theorem test_map_out_of_range :
    see (exec (.map .v0 false 0) (mapState .fault [440, 523] 1023 0 1023 0)) (fun t => (t.fault, t.mapout.valid))
        = some ({ cause := .idx, info := 511, upc := 0 }, false)
      ∧ see (exec (.map .v0 false 0) (mapState .clamp [440, 523] 1023 0 1023 0)) (fun t => (t.mapout.p, t.upc)) = some (523, 1)
      ∧ see (exec (.map .v0 false 0) { mapState .fault [440, 523] 1023 0 1023 0 with glat := { gp := 0, gw := 0, valid := false } })
        (fun t => t.fault) = some { cause := .latch, info := 0x6000, upc := 0 } := by decide

/-- 2.4: `BUF[6] = 100, BUF[7] = 32` gives `GLAT = (100, 32, 1)`. -/
def globalsState : State :=
  { base with slots := (base.slots.set 6 { value := 100, valid := true }).set 7 { value := 32, valid := true } }

theorem test_globalRead : see (exec (.globalRead false 0) globalsState) State.glat = some { gp := 100, gw := 32, valid := true } := by
  decide

/-- A2, A3: an ungated start abandons the conversion in flight; a gated one is not made. -/
theorem test_smpBegin_A2_A3 :
    see (exec (.smpBegin false 0) { base with ch := 3, adc := { busy := true, done := false, ch := 2, result := 0 } }) State.adc
        = some { busy := true, done := false, ch := 3, result := 0 }
      ∧ see (exec (.smpBegin false 0) { base with
          ch := 3, cfg := { cfg2 with adcStartGated := true }, adc := { busy := true, done := false, ch := 3, result := 0 } })
        (fun t => (t.adc, t.events)) = some ({ busy := true, done := false, ch := 3, result := 0 }, [.tmrStart 9]) := by decide

/-- A5: the last slot, and the channel wraps; `ADC.done` stays. A6: it holds. -/
theorem test_smpComplete_A5_A6 :
    see (exec (.smpComplete false 0) { base with ch := 7, adc := { busy := false, done := true, ch := 7, result := 777 } })
        (fun t => (t.slots[7]?, t.ch, t.adc.done, t.upc)) = some (some { value := 777, valid := true }, 0, true, 1)
      ∧ exec (.smpComplete false 0) { base with ch := 2, adc := { busy := true, done := false, ch := 2, result := 0 } }
        = .next { base with ch := 2, adc := { busy := true, done := false, ch := 2, result := 0 } } :=
  ⟨by decide, rfl⟩

/-- K1, K2: it holds, and it clears the flag. -/
theorem test_tickWait_K1_K2 :
    exec (.tickWait false 0) { base with upc := 1 } = .next { base with upc := 1 }
      ∧ see (exec (.tickWait false 0) { base with upc := 1, tmr := { elapsed := true, running := true, period := 9 } })
        (fun t => (t.tmr.elapsed, t.upc)) = some (false, 2) :=
  ⟨rfl, by decide⟩

/-- K4: one port write of 0x05. -/
theorem test_portWrite_K4 : see (exec (.portWrite false 0) { base with outacc := 0x05 }) (fun t => (t.port, t.outacc, t.events))
    = some (some 0x05, 0x05, [.portWr 0x05, .tmrStart 9]) := by decide

/-- K5, K7. -/
theorem test_cntInc_K5_K7 : see (exec (.cntInc false 0) { base with tc := 0x13 }) State.tc = some 0x14
    ∧ see (exec (.cntInc false 0) { base with tc := 0xFF }) State.tc = some 0x00 := by decide

/-- K8, K9, K10. -/
theorem test_loop_K8_K9_K10 : see (exec (.loop false 0) { base with upc := 15 }) State.upc = some 0
    ∧ see (exec (.loop true 3) { base with upc := 5, tc := 2 }) State.upc = some 6
    ∧ see (exec (.loop true 3) { base with upc := 5, tc := 3 }) State.upc = some 0 := by decide

/-- 2.1: 0x6084 at phase 5 is skipped, with no LATCH although `GLAT.valid = 0`. -/
theorem test_guard_skips_map : exec (.map .v0 true 4) { base with tc := 0x05 } = .next { base with tc := 0x05, upc := 1 } := rfl

/-- 2.1: 0x3384 at `upc = 2` and phase 0 raises ILLEGAL, although its guard does not match. -/
theorem test_illegal_before_guard :
    see (blockStep { base with upc := 2, rom := base.rom.set 2 0x3384 }) (fun t => (t.fault, t.upc))
      = some ({ cause := .illegal, info := 0x3384, upc := 2 }, 2) := by decide

/-- The first instruction after reset is the word that is placed: `CNT_INC`, from `State.reset` itself. -/
theorem test_withFetchWord_runs_first :
    blockStep (State.reset.withFetchWord 16 0x9000) = exec (.cntInc false 0) (State.reset.withFetchWord 16 0x9000) := rfl

/-- F1 and R204: a halted block takes no step, while the timer sets its flag. -/
theorem test_halted_step :
    see (step { base with fault := { cause := .idx, info := 511, upc := 0 }, inputs := [move true none] })
      (fun t => (t.upc, t.fault.cause, t.tmr.elapsed)) = some (0, .idx, true) := by decide

/-- F2 and R230: reset from a running state. -/
theorem test_reset_applied :
    see (step { base with tc := 5, ch := 3, upc := 14, inputs := [{ host := .reset, timerElapses := true, adcCompletes := none }] })
      (fun t => (t.tc, t.ch, t.upc, t.rst, t.tmr.elapsed)) = some (0, 0, 0, true, false) := by decide

/-! ### The hypotheses of the statements can be met -/

/-- `base` after `n` words, at a tick phase. -/
def at_ (upc : Nibble) (tc : Byte) : State := { base with upc := upc, tc := tc }

theorem test_cfg2_legal : paramsLegal cfg2 = true := by decide +kernel

theorem test_cfg2_allowed : AllowedByR10 cfg2 :=
  ⟨by decide, by decide, by decide, by decide, by decide, by decide, by simp [cfg2, table512], by simp [cfg2, table512]⟩

/-- `base` at any `upc` and phase, whatever the ADC, the settled moves, the configuration and the samples. -/
def tuned (cfg : Params) (slots : List Slot) (upc : Nibble) (tc : Byte) (adc : Adc) (es : List EnvMove) : State :=
  { base with cfg := cfg, slots := slots, upc := upc, tc := tc, adc := adc, inputs := es }

/-- The invariant holds of it under an allowed configuration. -/
theorem test_inv_tuned (cfg : Params) (slots : List Slot) (upc : Nibble) (tc : Byte) (adc : Adc) (es : List EnvMove)
    (hc : paramsLegal cfg = true) (hn : 0 < cfg.nCh) (hp : cfg.tickPeriod = 9) (hs : slots.length = cfg.nCh)
    (hv : ∀ x ∈ slots, x.valid = false → x.value = 0) (ha : ¬ (adc.busy = true ∧ adc.done = true)) :
    Inv (tuned cfg slots upc tc adc es) where
  storage := by simp [Memory.wf, tuned, hs]
  held := by intro h; simp [tuned, base] at h
  legal := fun _ => hc
  channel := fun _ => hn
  stale := hv
  pulse := show (0 : Nat) ≤ 0 by decide
  output := by intro i _; simp [tuned, base]
  adc := ha
  timer := by intro _; simp [tuned, base, timerStarts, hp]
  port := rfl
  tableReads := by intro a d h; simp [tuned, base] at h
  faultClear := by intro _; simp [tuned, base]
  faultUpc := by intro h; simp [tuned, base] at h
  faultIndex := by intro h; simp [tuned, base] at h

theorem test_inv_base (upc : Nibble) (tc : Byte) (adc : Adc) (es : List EnvMove) (ha : ¬ (adc.busy = true ∧ adc.done = true)) :
    Inv { base with upc := upc, tc := tc, adc := adc, inputs := es } :=
  test_inv_tuned cfg2 base.slots upc tc adc es test_cfg2_legal (by decide) rfl rfl
    (by intro x hx _; simp [base] at hx; simp [hx]) ha

/-- Reset held under `cfg2`. -/
def heldState (e : EnvMove) : State := State.atReset cfg2 Config.defaultRom [e] 0

theorem test_inv_held (e : EnvMove) : Inv (heldState e) where
  storage := rfl
  held := fun _ => ⟨0, rfl⟩
  legal := by intro h; simp [heldState] at h
  channel := by intro h; simp [heldState] at h
  stale := by intro x hx _; simp [heldState] at hx; simp [hx]
  pulse := by simp [heldState]
  output := by intro i _; simp [heldState]
  adc := by simp [heldState]
  timer := by intro h; simp [heldState] at h
  port := rfl
  tableReads := by intro a d h; simp [heldState] at h
  faultClear := by intro _; simp [heldState]
  faultUpc := by intro h; simp [heldState] at h
  faultIndex := by intro h; simp [heldState] at h

/-- The default-ROM facts hold of `base` at word 0 with the ADC idle. -/
theorem test_rom_facts (tc : Byte) (es : List EnvMove) : RomInv { base with tc := tc, inputs := es } := fun _ =>
  ⟨.inl rfl, by intro h; simp [base] at h, by intro h; simp [base] at h, by intro h; simp [base] at h,
    by intro h; simp [base] at h, by intro h; simp [base] at h, by intro h; simp [base] at h, by intro h; simp [base] at h⟩

theorem test_rom_facts_base : RomInv base := test_rom_facts 0 []

theorem test_witness_StepRunsTheDecodedInstruction :
    Running (at_ 15 0) ∧ decode ((at_ 15 0).rom[(at_ 15 0).upc.toNat]'(at_ 15 0).upc.isLt) = .ok (.loop false 0) :=
  ⟨⟨rfl, rfl⟩, by decide⟩

theorem test_witness_StepRunsThePlacedWord : (0xA083 : Nat) < 65536 ∧ decode (BitVec.ofNat 16 0xA083) = .ok (.loop true 3) := by
  decide

theorem test_witness_IllegalWordRaisesIllegal :
    Running { base with rom := base.rom.set 0 0x0000 }
      ∧ decode (fetch { base with rom := base.rom.set 0 0x0000 }) = .error .reservedOperation :=
  ⟨⟨rfl, rfl⟩, by decide⟩

/-- Performed unguarded, performed under its guard, and not performed. -/
theorem test_witness_Performed :
    Performed (.map .v0 false 0) base ∧ Performed (.map .v0 true 4) (at_ 7 0xF4) ∧ ¬ Performed (.map .v0 true 4) (at_ 7 5) :=
  ⟨rfl, rfl, by unfold Performed; decide⟩

/-- The four cases of what happens to `upc`: the wrap, a loop, a hold, a fault. -/
theorem test_witness_UpcAdvancesLoopsOrHolds :
    see (exec (.cntInc false 0) (at_ 15 0)) State.upc = some 0
      ∧ see (exec (.loop false 0) (at_ 7 0)) State.upc = some 0
      ∧ exec (.tickWait false 0) (at_ 1 0) = .next (at_ 1 0)
      ∧ exec (.smpComplete false 0) (at_ 13 0) = .next (at_ 13 0)
      ∧ see (exec (.oscSet .v0 false 0) (at_ 8 0)) (fun t => (t.upc, t.fault.cause)) = some (8, .latch) :=
  ⟨by decide, by decide, rfl, rfl, by decide⟩

/-- The hypotheses of the instruction statements' clauses, at the edges of their ranges. -/
theorem test_witness_instruction_clauses :
    Performed (.smpBegin false 0) base ∧ Performed (.tickWait true 15) (at_ 1 255) ∧ Performed (.oscTick .v2 false 0) base
      ∧ Performed (.globalRead false 0) globalsState ∧ Performed (.smpComplete true 0) (at_ 13 0)
      ∧ Performed (.portWrite false 0) base ∧ Performed (.cntInc false 0) base ∧ Performed (.loop false 0) base
      ∧ readSlot globalsState globalsState.cfg.gslotP = some 100 ∧ readSlot globalsState globalsState.cfg.gslotW = some 32
      ∧ readSlot { base with slots := [] } base.cfg.gslotP = none
      ∧ (3 : Nat) < ({ base with ch := 3 } : State).slots.length :=
  ⟨rfl, rfl, rfl, rfl, rfl, rfl, rfl, rfl, by decide, by decide, by decide, by decide⟩

/-- MAP's clauses where they meet, on a table of two entries: index 1 is in range, index 2 faults or is clamped to 1. -/
theorem test_witness_map_clauses :
    Performed (.map .v0 false 0) (mapState .fault [440, 523] 4 0 3 0)
      ∧ (mapState .fault [440, 523] 4 0 3 0).glat.valid = true
      ∧ readSlot (mapState .fault [440, 523] 4 0 3 0) (voiceSlotP (mapState .fault [440, 523] 4 0 3 0) .v0) = some 4
      ∧ readSlot (mapState .fault [440, 523] 4 0 3 0) (voiceSlotW (mapState .fault [440, 523] 4 0 3 0) .v0) = some 0
      ∧ (1 : Nat) = ((4 : Word).toNat + (3 : Word).toNat) / 4 ∧ (1 : Nat) < (mapState .fault [440, 523] 4 0 3 0).cfg.table.length
      ∧ (mapState .fault [440, 523] 4 0 3 0).cfg.table[1]? = some 523
      ∧ (mapState .fault [440, 523] 4 0 4 0).cfg.table.length ≤ ((4 : Word).toNat + (4 : Word).toNat) / 4
      ∧ (mapState .clamp [440, 523] 4 0 4 0).cfg.table[(2 : Nat) - 1]? = some 523 :=
  ⟨rfl, rfl, by decide, by decide, by decide, by decide, by decide, by decide, by decide⟩

/-- The stops: no slot for voice 1 of two slots, an empty table under `clamp`, no slot at channel 3 of no slots. -/
theorem test_witness_MissingSlotsAndEntriesStopByName :
    exec (.map .v1 false 0) (mapState .fault [440] 0 0 0 0) = .fault (.noSuchSlot 2)
      ∧ exec (.map .v0 false 0) (mapState .clamp [] 0 0 0 0) = .fault (.noSuchTableEntry 0)
      ∧ exec (.smpComplete false 0) { base with ch := 3, slots := [], adc := { busy := false, done := true, ch := 3, result := 5 } }
        = .fault (.noSuchSlot 3) := ⟨rfl, rfl, rfl⟩

/-- Each clause of `EachRegisterHasItsOneWriter` has an instruction that writes. -/
theorem test_witness_EachRegisterHasItsOneWriter :
    see (exec (.oscTick .v1 false 0) base) (fun t => ((oscOf t .v1).c, t.outacc)) = some (2, 0)
      ∧ see (exec (.oscTick .v1 false 0) (withOsc .v1 3 3 3)) State.outacc = some 2
      ∧ see (exec (.oscSet .v1 false 0) { base with mapout := { p := 9, w := 1, valid := true } }) (fun t => ((oscOf t .v1).p, (oscOf t .v1).w))
        = some (9, 1)
      ∧ see (exec (.smpComplete false 0) { base with adc := { busy := false, done := true, ch := 0, result := 5 } })
        (fun t => (t.slots[0]?, t.ch)) = some (some { value := 5, valid := true }, 1)
      ∧ see (exec (.cntInc false 0) base) State.tc = some 1
      ∧ see (exec (.globalRead false 0) base) (fun t => t.glat.valid) = some true
      ∧ see (exec (.map .v0 false 0) (mapState .fault [440] 0 0 0 0)) (fun t => t.mapout.valid) = some true
      ∧ see (exec (.portWrite false 0) base) State.port = some (some 0)
      ∧ see (exec (.smpBegin false 0) base) (fun t => t.adc.busy) = some true
      ∧ see (exec (.tickWait false 0) { base with tmr := { elapsed := true, running := true, period := 9 } })
        (fun t => t.tmr.elapsed) = some false
      ∧ see (exec (.map .v2 false 0) base) (fun t => t.fault.cause) = some .latch := by decide

theorem test_witness_VoicesDoNotInterfere :
    ∀ g ph, Instr.oscTick .v1 false 0 ≠ .oscTick .v0 g ph ∧ Instr.oscTick .v1 false 0 ≠ .oscSet .v0 g ph := by simp

/-- The three ways an attempt of the block records a fault. -/
theorem test_witness_FaultEntryWritesOnlyFault :
    see (blockStep { base with rom := base.rom.set 0 0xFFFF }) (fun t => t.fault.cause) = some .illegal
      ∧ see (blockStep (at_ 7 4)) (fun t => t.fault) = some { cause := .latch, info := 0x6084, upc := 7 }
      ∧ see (blockStep (at_ 8 4)) (fun t => t.fault) = some { cause := .latch, info := 0x7084, upc := 8 }
      ∧ see (blockStep { mapState .fault [440] 1023 0 1023 0 with upc := 7, tc := 4 }) (fun t => t.fault)
        = some { cause := .idx, info := 511, upc := 7 } := by decide

/-- A halted state with two moves settled. -/
def haltedState : State :=
  { base with fault := { cause := .latch, info := 0x6084, upc := 0 }, inputs := [move true (some 3), move false none] }

theorem test_witness_FaultIsStickyUntilReset :
    haltedState.rst = false ∧ haltedState.fault.cause ≠ .none ∧ haltedState.inputs = [move true (some 3), move false none] ++ []
      ∧ NoReset [move true (some 3), move false none] :=
  ⟨rfl, by decide, rfl, by intro e he; simp [move] at he; obtain rfl | rfl := he <;> simp⟩

theorem test_witness_OnlyResetLeavesTheHaltedState :
    see (step { haltedState with inputs := [{ host := .reset, timerElapses := false, adcCompletes := none }] })
      (fun t => t.fault.cause) = some .none := by decide

theorem test_witness_StuckTimerHoldsTheBlock :
    Running { at_ 1 0 with inputs := [move false (some 1)] }
      ∧ decode (fetch { at_ 1 0 with inputs := [move false (some 1)] }) = .ok (.tickWait false 0)
      ∧ Performed (.tickWait false 0) { at_ 1 0 with inputs := [move false (some 1)] }
      ∧ (at_ 1 0).tmr.elapsed = false ∧ NoReset [move false (some 1)] ∧ ∀ e ∈ [move false (some 1)], e.timerElapses = false :=
  ⟨⟨rfl, rfl⟩, by decide, rfl, rfl, by intro e he; simp at he; simp [he, move], by simp [move]⟩

theorem test_witness_StuckAdcHoldsTheBlock :
    Running { at_ 13 0 with inputs := [move true none] }
      ∧ decode (fetch { at_ 13 0 with inputs := [move true none] }) = .ok (.smpComplete true 0)
      ∧ Performed (.smpComplete true 0) { at_ 13 0 with inputs := [move true none] }
      ∧ (at_ 13 0).adc.done = false ∧ NoReset [move true none] ∧ ∀ e ∈ [move true none], e.adcCompletes = none :=
  ⟨⟨rfl, rfl⟩, by decide, rfl, rfl, by intro e he; simp at he; simp [he, move], by simp [move]⟩

/-- A state at `TICK_WAIT` whose timer elapses at the second move. -/
def waitState : State := { at_ 1 0 with inputs := [move false none] ++ move true none :: move false none :: [] }

theorem test_witness_TickWaitEndsWhenTheTimerElapses :
    Running waitState ∧ decode (fetch waitState) = .ok (.tickWait false 0) ∧ Performed (.tickWait false 0) waitState
      ∧ waitState.tmr.elapsed = false ∧ waitState.tmr.running = true
      ∧ waitState.inputs = [move false none] ++ move true none :: move false none :: []
      ∧ NoReset ([move false none] ++ [move true none, move false none])
      ∧ see (core.run 3 waitState) State.upc = some 2 :=
  ⟨⟨rfl, rfl⟩, by decide, rfl, rfl, rfl, rfl, by intro e he; simp at he; obtain rfl | rfl | rfl := he <;> simp [move], by decide⟩

theorem test_witness_ResetGivesTheResetValues :
    Inv { base with inputs := [{ host := .reset, timerElapses := false, adcCompletes := none }] }
      ∧ (nextMove { base with inputs := [{ host := .reset, timerElapses := false, adcCompletes := none }] }).host = .reset :=
  ⟨test_inv_base 0 0 base.adc _ (by decide), rfl⟩

/-- Reset goes on being held, or parameters are supplied, or it is released: under an allowed configuration, and under one
that is not. -/
theorem test_witness_held_reset :
    (heldState { host := .reset, timerElapses := false, adcCompletes := none }).rst = true
      ∧ (nextMove (heldState { host := .reset, timerElapses := false, adcCompletes := none })).host = .reset
      ∧ (nextMove (heldState { host := .supply cfg2 Config.defaultRom, timerElapses := false, adcCompletes := none })).host
          = .supply cfg2 Config.defaultRom
      ∧ Inv (heldState (move true none)) ∧ (nextMove (heldState (move true none))).host = .idle
      ∧ AllowedByR10 (heldState (move true none)).cfg :=
  ⟨rfl, rfl, rfl, test_inv_held _, rfl, test_cfg2_allowed⟩

theorem test_witness_refused_configuration :
    ¬ AllowedByR10 { cfg2 with nCh := 7 } ∧ ¬ AllowedByR10 { cfg2 with table := table512.take 255 } := by
  constructor
  · intro h; exact absurd h.1 (by decide)
  · intro h; exact absurd h.2.2.2.2.2.2.1 (by simp [table512])

/-- A state of the invariant, a step from it, and the default-ROM facts at it. -/
theorem test_witness_EveryStepKeepsTheInvariant :
    Inv { base with inputs := [move true none] } ∧ RomInv base
      ∧ see (step { base with inputs := [move true none] }) (fun t => (t.upc, t.adc.busy, t.tmr.elapsed)) = some (1, true, true) :=
  ⟨test_inv_base 0 0 base.adc _ (by decide), test_rom_facts_base, by decide⟩

/-- Countdowns at both ends of `1 .. P`, at 0, and a valid mapper result to set. -/
theorem test_witness_waveforms :
    1 ≤ (oscOf (withOsc .v0 4 2 1) .v0).c.toNat ∧ (oscOf (withOsc .v0 4 2 4) .v0).c.toNat ≤ (oscOf (withOsc .v0 4 2 4) .v0).p.toNat
      ∧ (oscOf (withOsc .v0 0 0 0) .v0).c = 0
      ∧ see (exec (.oscSet .v0 false 0) { withOsc .v0 4 2 1 with mapout := { p := 9, w := 3, valid := true } })
          (fun t => oscOf t .v0) = some { p := 9, w := 3, c := 1 } := by decide

/-- 95_test_vectors.md 2.2, the sequence vector: `P = 5, W = 3, C = 5`. -/
theorem test_voiceTrace_sequence : voiceTrace .v0 5 (withOsc .v0 5 3 5) =
    [(4, false), (3, false), (2, true), (1, true), (5, false)] := by decide

/-- Two `MAP`s of different voices, guards and policies' states with the same inputs, both completing. -/
theorem test_witness_MapIsAFunctionOfItsInputs :
    Performed (.map .v0 false 0) (mapState .fault [440] 1 2 0 0) ∧ Performed (.map .v0 true 0) (mapState .fault [440] 1 2 0 0)
      ∧ see (exec (.map .v0 false 0) (mapState .fault [440] 1 2 0 0)) (fun t => t.fault) = some base.fault
      ∧ see (exec (.map .v0 true 0) (mapState .fault [440] 1 2 0 0)) (fun t => t.fault) = some base.fault
      ∧ see (exec (.map .v0 false 0) (mapState .fault [440] 1 2 0 0)) (fun t => t.upc) = some 1 :=
  ⟨rfl, rfl, by decide, by decide, by decide⟩

theorem test_witness_PulseWidthShrinks : (15 : Word).toNat ≤ (16 : Word).toNat ∧ (0 : Word).toNat / 16 = (15 : Word).toNat / 16
    ∧ mapPulse 440 16 0 = 207 ∧ mapPulse 440 15 0 = 220 := by decide

theorem test_witness_SweepWritesEverySlot :
    Inv { base with adc := { busy := false, done := true, ch := 0, result := 3 } } ∧ base.rst = false
      ∧ see (execTimes (.smpComplete false 0) 8 { base with adc := { busy := false, done := true, ch := 0, result := 3 } })
        (fun t => t.ch) = some 0 :=
  ⟨test_inv_base 0 0 _ [] (by decide), rfl, by decide⟩

/-- A state at the start of a tick, with that tick's sixteen moves: the timer elapses and the ADC may complete first. -/
def tickState (tc : Byte) (a : Option Word) : State :=
  { base with tc := tc, inputs := (move true a :: List.replicate 15 (move false none)) ++ [] }

theorem test_tick_no_reset (a : Option Word) : NoReset (move true a :: List.replicate 15 (move false none)) := by
  intro e he
  simp at he
  obtain rfl | rfl := he <;> simp [move]

/-- Phases just after and just before those with a retune or a sample. -/
theorem test_witness_QuietTickRunsToTheNextTick (tc : Byte) (h : tc = 1 ∨ tc = 3 ∨ tc = 0xFF) :
    Inv (tickState tc none) ∧ Running (tickState tc none) ∧ (tickState tc none).rom = Config.defaultRom
      ∧ (tickState tc none).upc = 0 ∧ (tickState tc none).inputs = (move true none :: List.replicate 15 (move false none)) ++ []
      ∧ (List.replicate 15 (move false none)).length = 15 ∧ NoReset (move true none :: List.replicate 15 (move false none))
      ∧ (move true none).timerElapses = true
      ∧ phase (tickState tc none) ≠ 0 ∧ phase (tickState tc none) ≠ 4 ∧ phase (tickState tc none) ≠ 8
      ∧ phase (tickState tc none) ≠ 12 :=
  ⟨test_inv_base 0 tc base.adc _ (by decide), ⟨rfl, rfl⟩, rfl, rfl, rfl, rfl, test_tick_no_reset none, rfl,
    by obtain rfl | rfl | rfl := h <;> decide⟩

/-- A state at the start of a tick whose wait is held for `n` moves more than one. -/
def heldTickState (n : Nat) : State :=
  { base with
    tc := 1
    inputs := (move false none :: (List.replicate n (move false none) ++ move true none :: List.replicate 15 (move false none))) ++ [] }

/-- No move more than one, and three. -/
theorem test_witness_HeldWaitOnlyDelaysTheTick (n : Nat) (h : n = 0 ∨ n = 3) :
    Inv (heldTickState n) ∧ Running (heldTickState n) ∧ (heldTickState n).rom = Config.defaultRom ∧ (heldTickState n).upc = 0
      ∧ (heldTickState n).tmr.elapsed = false
      ∧ (heldTickState n).inputs =
        (move false none :: (List.replicate n (move false none) ++ move true none :: List.replicate 15 (move false none))) ++ []
      ∧ (List.replicate 15 (move false none)).length = 15
      ∧ NoReset (move false none :: (List.replicate n (move false none) ++ move true none :: List.replicate 15 (move false none)))
      ∧ (∀ x ∈ move false none :: List.replicate n (move false none), x.timerElapses = false)
      ∧ (move true none).timerElapses = true
      ∧ phase (heldTickState n) ≠ 0 ∧ phase (heldTickState n) ≠ 4 ∧ phase (heldTickState n) ≠ 8 ∧ phase (heldTickState n) ≠ 12
      ∧ see (core.run (n + 17) (heldTickState n)) (fun t => (t.upc, t.tc, t.inputs)) = some (0, 2, []) :=
  ⟨test_inv_base 0 1 base.adc _ (by decide), ⟨rfl, rfl⟩, rfl, rfl, rfl, rfl, rfl,
    by obtain rfl | rfl := h <;> simp [NoReset, move], by obtain rfl | rfl := h <;> simp [move], rfl,
    show (1 : Nibble) ≠ 0 by decide, show (1 : Nibble) ≠ 4 by decide, show (1 : Nibble) ≠ 8 by decide,
    show (1 : Nibble) ≠ 12 by decide, by obtain rfl | rfl := h <;> decide +kernel⟩

theorem test_witness_SampleTickStoresTheReading :
    Inv (tickState 0 (some 512)) ∧ Running (tickState 0 (some 512)) ∧ (tickState 0 (some 512)).rom = Config.defaultRom
      ∧ (tickState 0 (some 512)).upc = 0
      ∧ (tickState 0 (some 512)).inputs = (move true (some 512) :: List.replicate 15 (move false none)) ++ []
      ∧ (List.replicate 15 (move false none)).length = 15
      ∧ NoReset (move true (some 512) :: List.replicate 15 (move false none))
      ∧ (move true (some 512)).timerElapses = true ∧ (move true (some 512)).adcCompletes = some 512
      ∧ phase (tickState 0 (some 512)) = 0 ∧ RomInv (tickState 0 (some 512)) :=
  ⟨test_inv_base 0 0 base.adc _ (by decide), ⟨rfl, rfl⟩, rfl, rfl, rfl, rfl, test_tick_no_reset _, rfl, rfl, by decide,
    test_rom_facts 0 _⟩

/-- The shortest table that R10 allows, under a policy: indices up to 255 are in range. -/
def cfg256 (policy : IndexPolicy) : Params := { cfg2 with table := table512.take 256, indexPolicy := policy }

theorem test_cfg256_legal (policy : IndexPolicy) : paramsLegal (cfg256 policy) = true := by cases policy <;> decide +kernel

/-- A state at the start of the tick that retunes `v`, every slot holding `x`. -/
def retuneState (v : Voice) (policy : IndexPolicy) (x : Word) : State :=
  tuned (cfg256 policy) (List.replicate 8 { value := x, valid := true }) 0 (BitVec.zeroExtend 8 (mapPhase v)) base.adc
    ((move true none :: List.replicate 15 (move false none)) ++ [])

/-- The hypotheses that the two statements about a retune share, all of them met by one state for each voice. -/
theorem test_witness_retune_shared (v : Voice) (policy : IndexPolicy) (x : Word) :
    Inv (retuneState v policy x) ∧ Running (retuneState v policy x) ∧ (retuneState v policy x).rom = Config.defaultRom
      ∧ (retuneState v policy x).upc = 0
      ∧ (retuneState v policy x).inputs = (move true none :: List.replicate 15 (move false none)) ++ []
      ∧ (List.replicate 15 (move false none)).length = 15 ∧ NoReset (move true none :: List.replicate 15 (move false none))
      ∧ (move true none).timerElapses = true ∧ phase (retuneState v policy x) = mapPhase v
      ∧ readSlot (retuneState v policy x) (voiceSlotP (retuneState v policy x) v) = some x
      ∧ readSlot (retuneState v policy x) (voiceSlotW (retuneState v policy x) v) = some x
      ∧ readSlot (retuneState v policy x) (retuneState v policy x).cfg.gslotP = some x
      ∧ readSlot (retuneState v policy x) (retuneState v policy x).cfg.gslotW = some x :=
  ⟨test_inv_tuned _ _ _ _ _ _ (test_cfg256_legal policy) (show 0 < 8 by decide) rfl rfl
      (by intro y hy hf; simp at hy; simp [hy] at hf) (by decide),
    ⟨rfl, rfl⟩, rfl, rfl, rfl, rfl, test_tick_no_reset none, rfl, by cases v <;> rfl,
    by cases v <;> rfl, by cases v <;> rfl, by cases v <;> rfl, by cases v <;> rfl⟩

/-- The last index in range is read, and the first one out of range is clamped to it; each with the hypotheses above. -/
theorem test_witness_RetuneTickAppliesTheMapperResult :
    ((511 : Word).toNat + (511 : Word).toNat) / 4 = 255 ∧ ((512 : Word).toNat + (512 : Word).toNat) / 4 = 256
      ∧ (retuneState .v2 .clamp 512).cfg.indexPolicy = .clamp ∧ (retuneState .v2 .clamp 512).cfg.table.length = 256
      ∧ (retuneState .v2 .fault 511).cfg.table.length = 256
      ∧ (retuneState .v2 .fault 511).cfg.table[255]? = some 355 ∧ (retuneState .v2 .clamp 512).cfg.table[255]? = some 355
      ∧ see (core.run 16 (retuneState .v2 .fault 511)) (fun t => (t.osc.v2.p, t.upc, t.tc)) = some (355, 0, 13)
      ∧ see (core.run 16 (retuneState .v2 .clamp 512)) (fun t => (t.osc.v2.p, t.upc, t.tc)) = some (355, 0, 13) := by
  decide +kernel

/-- 95_test_vectors.md, program P4: index 511 of 256 entries, here for voice 0; and the first index out of range, voice 1. -/
theorem test_witness_RetuneTickHaltsWhereTheIndexIsOutOfRange :
    (retuneState .v0 .fault 1023).cfg.table.length ≤ ((1023 : Word).toNat + (1023 : Word).toNat) / 4
      ∧ (retuneState .v0 .fault 1023).cfg.indexPolicy = .fault
      ∧ see (core.run 16 (retuneState .v0 .fault 1023)) (fun t => (t.fault, t.upc, t.tc))
        = some ({ cause := .idx, info := 511, upc := 7 }, 7, 4)
      ∧ (retuneState .v1 .fault 512).cfg.table.length ≤ ((512 : Word).toNat + (512 : Word).toNat) / 4
      ∧ see (core.run 16 (retuneState .v1 .fault 512)) (fun t => (t.fault, t.upc, t.tc))
        = some ({ cause := .idx, info := 256, upc := 9 }, 9, 8) := by
  decide +kernel

/-- 95_test_vectors.md, program P2: tick 0 from reset, the ADC completing with 512 and the timer elapsing after word 0. -/
theorem test_P2_tick_0 :
    see (core.run 16 (tickState 0 (some 512))) (fun t => (t.osc.v0.c, t.osc.v1.c, t.osc.v2.c, t.port)) = some (3, 2, 1, some 0x04)
      ∧ see (core.run 16 (tickState 0 (some 512))) (fun t => (t.slots[0]?, t.ch, t.tc, t.upc))
        = some (some { value := 512, valid := true }, 1, 1, 0) := by decide +kernel

/-- 95_test_vectors.md, program P3's tick 4: voice 0 is retuned, its countdown kept, after the port write. -/
theorem test_P3_tick_4 : see (core.run 16 { tickState 4 none with
      ch := 1, slots := base.slots.set 0 { value := 512, valid := true },
      osc := { v0 := { p := 4, w := 2, c := 4 }, v1 := { p := 3, w := 2, c := 2 }, v2 := { p := 2, w := 2, c := 2 } } })
    (fun t => (t.osc.v0, t.port, t.mapout, t.tc, t.upc))
      = some ({ p := 228, w := 114, c := 3 }, some 0x06, { p := 228, w := 114, valid := true }, 5, 0) := by decide +kernel

end Sys2Proof.Tests
end

section
/-! Stops by name (log 10): `MAP` and `SMP_COMPLETE` where a slot (20_memory.md R51) or a table entry (R52) does not
exist. -/

namespace Sys2Proof.Machine

theorem slotAt_of_length_le {s : State} {i : Nat} (h : s.slots.length ≤ i) : slotAt s i = none :=
  List.getElem?_eq_none h

/-- `MAP` with a valid `GLAT` names the first of its voice's two slots that does not exist. -/
theorem mapVoice_missing_slot {v : Voice} {s : State}
    (h : readSlot s (voiceSlotP s v) = none ∨ readSlot s (voiceSlotW s v) = none) :
    ∃ i, mapVoice v s = .fault (.noSuchSlot i) ∧ s.slots.length ≤ i := by
  cases hp : readSlot s (voiceSlotP s v) with
  | none => exact ⟨voiceSlotP s v, by simp [mapVoice, hp], readSlot_eq_none hp⟩
  | some vp =>
    have hw : readSlot s (voiceSlotW s v) = none := by simpa [hp] using h
    exact ⟨voiceSlotW s v, by simp [mapVoice, hp, hw], readSlot_eq_none hw⟩

/-- In an empty table every index is out of range, and `clamp` selects entry `0 - 1 = 0`, which does not exist either. -/
theorem mapRaw_empty_table {s : State} (vp vw : Word) (ht : s.cfg.table = []) (hc : s.cfg.indexPolicy = .clamp) :
    mapRaw vp vw s = .fault (.noSuchTableEntry 0) := by
  have hsel : selectIndex s.cfg.indexPolicy (tableLen s) (mapIndex vp s.glat.gp) = some 0 := by
    simp [selectIndex, tableLen, ht, hc]
  have hentry : tableAt s 0 = none := by simp [tableAt, ht]
  simp [mapRaw, hsel, mapAt, hentry]

theorem mapVoice_of_slots {v : Voice} {s : State} {vp vw : Word}
    (hp : readSlot s (voiceSlotP s v) = some vp) (hw : readSlot s (voiceSlotW s v) = some vw) :
    mapVoice v s = mapRaw vp vw s := by
  simp [mapVoice, hp, hw]

theorem storeSample_missing_slot {s : State} (h : s.slots.length ≤ s.ch.toNat) :
    storeSample s = .fault (.noSuchSlot s.ch.toNat) := by
  simp [storeSample, slotAt_of_length_le h]

end Sys2Proof.Machine

namespace Sys2Proof.Proofs

open Sys2Proof.Machine Sys2Proof.Safety

/-- Settles O18: past the guard and the `LATCH` check, `MAP` reads its slots before the table; `SMP_COMPLETE` looks
its slot up before it writes. -/
theorem missingSlotsAndEntriesStopByName : Obligations.MissingSlotsAndEntriesStopByName := by
  refine ⟨fun v g ph s hperf hvalid => ?_, fun g ph s hperf hdone hlen => ?_⟩
  · have hmap : exec (.map v g ph) s = mapVoice v s := by rw [exec_map (g := g) (ph := ph) hperf, if_pos hvalid]
    rw [hmap]
    refine ⟨mapVoice_missing_slot, fun hp hw ht hc => ?_⟩
    obtain ⟨vp, hvp⟩ := Option.ne_none_iff_exists'.mp hp
    obtain ⟨vw, hvw⟩ := Option.ne_none_iff_exists'.mp hw
    rw [mapVoice_of_slots hvp hvw, mapRaw_empty_table vp vw ht hc]
  · rw [exec_smpComplete (g := g) (ph := ph) hperf, if_pos hdone, storeSample_missing_slot hlen]

end Sys2Proof.Proofs
end

section
/-! What an instruction that answers a next state did, one named case for each path through it: `exec_cases`, with the
paths of the shared operations spelled out. The proofs about all ten instructions split on it. -/

namespace Sys2Proof.Machine

/-- The paths of the ten instructions, each with what held on it and the state it leaves. -/
inductive ExecPath (s : State) : Instr → State → Prop
  | skipped {i : Instr} (hg : guardPasses i.guardOn i.guardPhase s = false) : ExecPath s i (advance s)
  | startRefused {g : Bool} {ph : Nibble} (hgated : s.cfg.adcStartGated = true) (hbusy : s.adc.busy = true) :
      ExecPath s (.smpBegin g ph) (advance s)
  | started {g : Bool} {ph : Nibble} : ExecPath s (.smpBegin g ph) (advance (adcStart s.ch s))
  | tickTaken {g : Bool} {ph : Nibble} : ExecPath s (.tickWait g ph) (advance (tickClear s))
  | tickAwaited {g : Bool} {ph : Nibble} (hflag : s.tmr.elapsed = false) : ExecPath s (.tickWait g ph) s
  | ticked {v : Voice} {g : Bool} {ph : Nibble} : ExecPath s (.oscTick v g ph) (advance (tickVoice v s))
  | portWritten {g : Bool} {ph : Nibble} : ExecPath s (.portWrite g ph) (advance (portOut s.outacc s))
  | globalsRead {g : Bool} {ph : Nibble} (gp gw : Word) :
      ExecPath s (.globalRead g ph) (advance { s with glat := { gp := gp, gw := gw, valid := true } })
  | mapped {v : Voice} {g : Bool} {ph : Nibble} (i : Nat) (period vw : Word) (hi : i ≤ 32767)
      (hentry : s.cfg.table[i]? = some period) : ExecPath s (.map v g ph) (afterMap i period vw s)
  | mapIndexFault {v : Voice} {g : Bool} {ph : Nibble} (index : Nat) (hle : index ≤ 32767)
      (hlen : s.cfg.table.length ≤ index) (hpolicy : s.cfg.indexPolicy = .fault) :
      ExecPath s (.map v g ph) (raiseFault .idx (BitVec.ofNat 16 index) s)
  | mapLatchFault {v : Voice} {g : Bool} {ph : Nibble} (hinvalid : s.glat.valid = false) :
      ExecPath s (.map v g ph) (raiseFault .latch (encode (.map v g ph)) s)
  | retuned {v : Voice} {g : Bool} {ph : Nibble} : ExecPath s (.oscSet v g ph) (advance (setVoice v s))
  | setLatchFault {v : Voice} {g : Bool} {ph : Nibble} (hg : guardPasses g ph s = true)
      (hinvalid : s.mapout.valid = false) :
      ExecPath s (.oscSet v g ph) (raiseFault .latch (encode (.oscSet v g ph)) s)
  | stored {g : Bool} {ph : Nibble} (hdone : s.adc.done = true) : ExecPath s (.smpComplete g ph)
      (advance { writeSlot s s.ch.toNat s.adc.result with ch := nextChannel s })
  | sampleAwaited {g : Bool} {ph : Nibble} (hdone : s.adc.done = false) : ExecPath s (.smpComplete g ph) s
  | counted {g : Bool} {ph : Nibble} : ExecPath s (.cntInc g ph) (advance { s with tc := s.tc + 1 })
  | looped {g : Bool} {ph : Nibble} : ExecPath s (.loop g ph) { s with upc := 0 }

theorem execPath_of_mapVoice {v : Voice} {g : Bool} {ph : Nibble} {s t : State} (h : mapVoice v s = .next t) :
    ExecPath s (.map v g ph) t := by
  obtain ⟨vp, vw, -, -, ⟨hlen, hpolicy, rfl⟩ | ⟨i, period, hi, hentry, -, rfl⟩⟩ := mapVoice_cases h
  · exact .mapIndexFault _ (mapIndex_le _ _) hlen hpolicy
  · exact .mapped i period vw hi hentry

/-- Whatever `exec` answers as a next state, it took one of the paths. -/
theorem execPath_of_exec {i : Instr} {s t : State} (h : exec i s = .next t) : ExecPath s i t := by
  obtain ⟨hg, rfl⟩ | ⟨hg, hpath⟩ := exec_cases h
  · exact .skipped hg
  · obtain ⟨_, _, rfl, rfl⟩ | ⟨_, _, rfl, -, rfl⟩ | ⟨_, _, rfl, hflag, rfl⟩ | ⟨_, _, _, rfl, rfl⟩ | ⟨_, _, rfl, rfl⟩
      | ⟨_, _, rfl, hr⟩ | ⟨_, _, _, rfl, -, hm⟩ | ⟨_, _, _, rfl, hinvalid, rfl⟩ | ⟨_, _, _, rfl, -, rfl⟩
      | ⟨_, _, _, rfl, hinvalid, rfl⟩ | ⟨_, _, rfl, hdone, hs⟩ | ⟨_, _, rfl, hdone, rfl⟩ | ⟨_, _, rfl, rfl⟩
      | ⟨_, _, rfl, rfl⟩ := hpath
    · obtain ⟨hgated, hbusy, he⟩ | ⟨-, he⟩ := beginSample_cases s <;> rw [he]
      · exact .startRefused hgated hbusy
      · exact .started
    · exact .tickTaken
    · exact .tickAwaited hflag
    · exact .ticked
    · exact .portWritten
    · obtain ⟨gp, gw, -, -, rfl⟩ := readGlobals_cases hr
      exact .globalsRead gp gw
    · exact execPath_of_mapVoice hm
    · exact .mapLatchFault hinvalid
    · exact .retuned
    · exact .setLatchFault hg hinvalid
    · obtain ⟨-, rfl⟩ := storeSample_cases hs
      exact .stored hdone
    · exact .sampleAwaited hdone
    · exact .counted
    · exact .looped

/-! ### `afterMap`, field by field -/

@[simp] theorem afterMap_osc (i : Nat) (p w : Word) (s : State) : (afterMap i p w s).osc = s.osc := rfl
@[simp] theorem afterMap_slots (i : Nat) (p w : Word) (s : State) : (afterMap i p w s).slots = s.slots := rfl
@[simp] theorem afterMap_ch (i : Nat) (p w : Word) (s : State) : (afterMap i p w s).ch = s.ch := rfl
@[simp] theorem afterMap_tc (i : Nat) (p w : Word) (s : State) : (afterMap i p w s).tc = s.tc := rfl
@[simp] theorem afterMap_glat (i : Nat) (p w : Word) (s : State) : (afterMap i p w s).glat = s.glat := rfl
@[simp] theorem afterMap_mapout (i : Nat) (p w : Word) (s : State) :
    (afterMap i p w s).mapout = { p := p, w := mapPulse p w s.glat.gw, valid := true } := rfl
@[simp] theorem afterMap_outacc (i : Nat) (p w : Word) (s : State) : (afterMap i p w s).outacc = s.outacc := rfl
@[simp] theorem afterMap_upc (i : Nat) (p w : Word) (s : State) : (afterMap i p w s).upc = s.upc + 1 := rfl
@[simp] theorem afterMap_fault (i : Nat) (p w : Word) (s : State) : (afterMap i p w s).fault = s.fault := rfl
@[simp] theorem afterMap_adc (i : Nat) (p w : Word) (s : State) : (afterMap i p w s).adc = s.adc := rfl
@[simp] theorem afterMap_tmr (i : Nat) (p w : Word) (s : State) : (afterMap i p w s).tmr = s.tmr := rfl
@[simp] theorem afterMap_port (i : Nat) (p w : Word) (s : State) : (afterMap i p w s).port = s.port := rfl
@[simp] theorem afterMap_rom (i : Nat) (p w : Word) (s : State) : (afterMap i p w s).rom = s.rom := rfl
@[simp] theorem afterMap_cfg (i : Nat) (p w : Word) (s : State) : (afterMap i p w s).cfg = s.cfg := rfl
@[simp] theorem afterMap_rst (i : Nat) (p w : Word) (s : State) : (afterMap i p w s).rst = s.rst := rfl
@[simp] theorem afterMap_events (i : Nat) (p w : Word) (s : State) :
    (afterMap i p w s).events = .tblRead (BitVec.ofNat 16 i) p :: s.events := rfl
@[simp] theorem afterMap_inputs (i : Nat) (p w : Word) (s : State) : (afterMap i p w s).inputs = s.inputs := rfl
@[simp] theorem afterMap_moment (i : Nat) (p w : Word) (s : State) : (afterMap i p w s).moment = s.moment := rfl

/-! ### A voice's registers after `OSC_TICK` and `OSC_SET` -/

theorem oscOf_tickVoice_same (v : Voice) (s : State) :
    oscOf (tickVoice v s) v = { oscOf s v with c := nextCountdown (oscOf s v) } := by
  simp [oscOf]

theorem oscOf_tickVoice_other {u v : Voice} (s : State) (h : u ≠ v) : oscOf (tickVoice v s) u = oscOf s u := by
  simp [oscOf, perVoice_get_set_other _ _ _ _ h]

theorem oscOf_setVoice_same (v : Voice) (s : State) :
    oscOf (setVoice v s) v = { oscOf s v with p := s.mapout.p, w := s.mapout.w } := by
  simp [oscOf]

theorem oscOf_setVoice_other {u v : Voice} (s : State) (h : u ≠ v) : oscOf (setVoice v s) u = oscOf s u := by
  simp [oscOf, perVoice_get_set_other _ _ _ _ h]

/-- `OSC_TICK v` writes no voice's period or pulse width (10_state.md R21). -/
theorem oscOf_tickVoice_period_pulse (u v : Voice) (s : State) :
    (oscOf (tickVoice v s) u).p = (oscOf s u).p ∧ (oscOf (tickVoice v s) u).w = (oscOf s u).w := by
  by_cases h : u = v
  · subst h; rw [oscOf_tickVoice_same]; exact ⟨rfl, rfl⟩
  · rw [oscOf_tickVoice_other s h]; exact ⟨rfl, rfl⟩

/-- `OSC_SET v` writes no voice's countdown (40_oscillator.md R111). -/
theorem oscOf_setVoice_countdown (u v : Voice) (s : State) : (oscOf (setVoice v s) u).c = (oscOf s u).c := by
  by_cases h : u = v
  · subst h; rw [oscOf_setVoice_same]
  · rw [oscOf_setVoice_other s h]

/-! ### The micro-pc, as a number -/

theorem advance_upc_toNat (s : State) : (advance s).upc.toNat = (s.upc.toNat + 1) % 16 := by
  rw [advance_upc, BitVec.toNat_add]
  rfl

end Sys2Proof.Machine

namespace Sys2Proof.Proofs

open Sys2Proof.Machine Sys2Proof.Safety

/-- Settles O10: each path but the two holds, the three fault entries and `LOOP` ends in `advance`. -/
theorem upcAdvancesLoopsOrHolds : Obligations.UpcAdvancesLoopsOrHolds := by
  intro i s t h
  cases execPath_of_exec h with
  | tickAwaited hflag => exact .inr (.inr (.inl ⟨rfl, .inl ⟨_, _, rfl, hflag⟩⟩))
  | sampleAwaited hdone => exact .inr (.inr (.inl ⟨rfl, .inr ⟨_, _, rfl, hdone⟩⟩))
  | mapIndexFault _ _ _ _ => exact .inr (.inr (.inr ⟨rfl, by simp, rfl⟩))
  | mapLatchFault _ => exact .inr (.inr (.inr ⟨rfl, by simp, rfl⟩))
  | setLatchFault _ _ => exact .inr (.inr (.inr ⟨rfl, by simp, rfl⟩))
  | looped => exact .inr (.inl ⟨rfl, _, _, rfl⟩)
  | _ => exact .inl (advance_upc_toNat _)

end Sys2Proof.Proofs
end

section
/-! Which instruction writes which register (10_state.md R21 to R37). -/

namespace Sys2Proof.Machine

theorem eq_of_tickVoice_countdown_ne {u v : Voice} {s : State} (h : (oscOf (tickVoice v s) u).c ≠ (oscOf s u).c) :
    v = u := by
  by_contra hne
  exact h (by rw [oscOf_tickVoice_other s (Ne.symm hne)])

theorem eq_of_setVoice_period_or_pulse_ne {u v : Voice} {s : State}
    (h : (oscOf (setVoice v s) u).p ≠ (oscOf s u).p ∨ (oscOf (setVoice v s) u).w ≠ (oscOf s u).w) : v = u := by
  by_contra hne
  rw [oscOf_setVoice_other s (Ne.symm hne)] at h
  exact h.elim (· rfl) (· rfl)

@[simp] theorem oscOf_advance (s : State) (v : Voice) : oscOf (advance s) v = oscOf s v := rfl

end Sys2Proof.Machine

namespace Sys2Proof.Proofs

open Sys2Proof.Machine Sys2Proof.Safety

/-- Settles O22: on each path the registers it does not write are those before it; the two oscillator operations write
only their own voice's, and only their own half of them. -/
theorem eachRegisterHasItsOneWriter : Obligations.EachRegisterHasItsOneWriter := by
  intro i s t h
  cases execPath_of_exec h with
  | @ticked v g ph =>
    refine ⟨fun u hu => ?_, fun u hu => ?_, by simp⟩
    · obtain rfl := eq_of_tickVoice_countdown_ne hu
      exact ⟨g, ph, rfl⟩
    · obtain ⟨hp, hw⟩ := oscOf_tickVoice_period_pulse u v s
      exact absurd hu (by simp [hp, hw])
  | @retuned v g ph =>
    refine ⟨fun u hu => absurd (oscOf_setVoice_countdown u v s) hu, fun u hu => ?_, by simp⟩
    obtain rfl := eq_of_setVoice_period_or_pulse_ne hu
    exact ⟨g, ph, rfl⟩
  | _ => simp [oscOf]

end Sys2Proof.Proofs
end

section
/-! What no instruction, or only an instruction of one voice, reads (10_state.md R21, R24): rewriting the oscillator
registers, or the `VALID` flags, before an instruction is rewriting them after it. -/

namespace Sys2Proof.Machine

open Sys2Proof.Safety

/-- The oscillator registers rewritten by `a` and the sample buffer by `b`; all else kept. -/
def rewriteStores (a : PerVoice Osc → PerVoice Osc) (b : List Slot → List Slot) (s : State) : State :=
  { s with osc := a s.osc, slots := b s.slots }

/-- `b` keeps the value of every slot, and which slots there are. -/
def KeepsValues (b : List Slot → List Slot) : Prop :=
  ∀ (l : List Slot) (i : Nat), (b l)[i]?.map Slot.value = l[i]?.map Slot.value

theorem keepsValues_id : KeepsValues (fun l => l) := fun _ _ => rfl

theorem keepsValues_clearValid : KeepsValues (fun l => l.map fun x => { x with valid := false }) := by
  intro l i
  rw [List.getElem?_map, Option.map_map]
  rfl

/-- A guarded word commutes with a rewriting that keeps the tick counter and `upc`, if what it performs does. -/
theorem guarded_mapNext {f : State → State} {g : Bool} {ph : Nibble} {s : State} {p q : Result}
    (htc : (f s).tc = s.tc) (hadvance : advance (f s) = f (advance s)) (hperform : p = mapNext f q) :
    guarded g ph (f s) p = mapNext f (guarded g ph s q) := by
  subst hperform
  cases hg : guardPasses g ph s with
  | false => rw [guarded_skipped _ hg, guarded_skipped _ (by rw [guardPasses_of_tc htc, hg]), hadvance, mapNext_next]
  | true => rw [guarded_performed _ hg, guarded_performed _ (by rw [guardPasses_of_tc htc, hg])]

variable {a : PerVoice Osc → PerVoice Osc} {b : List Slot → List Slot}

theorem readSlot_rewriteStores (hb : KeepsValues b) (s : State) (i : Nat) :
    readSlot (rewriteStores a b s) i = readSlot s i := hb s.slots i

theorem beginSample_rewriteStores (s : State) :
    beginSample (rewriteStores a b s) = rewriteStores a b (beginSample s) := by
  unfold beginSample
  cases hc : s.cfg.adcStartGated && s.adc.busy
  · rw [if_neg (by simp [rewriteStores, hc])]; rfl
  · rw [if_pos (by simp [rewriteStores, hc])]; rfl

theorem readGlobals_rewriteStores (hb : KeepsValues b) (s : State) :
    readGlobals (rewriteStores a b s) = mapNext (rewriteStores a b) (readGlobals s) := by
  have hcfg : (rewriteStores a b s).cfg = s.cfg := rfl
  cases hp : readSlot s s.cfg.gslotP <;> cases hw : readSlot s s.cfg.gslotW <;>
    simp only [readGlobals, readSlot_rewriteStores hb, hcfg, hp, hw] <;> rfl

theorem mapRaw_rewriteStores (vp vw : Word) (s : State) :
    mapRaw vp vw (rewriteStores a b s) = mapNext (rewriteStores a b) (mapRaw vp vw s) := by
  have hglat : (rewriteStores a b s).glat = s.glat := rfl
  have hcfg : (rewriteStores a b s).cfg = s.cfg := rfl
  have hlen : tableLen (rewriteStores a b s) = tableLen s := rfl
  cases hsel : selectIndex s.cfg.indexPolicy (tableLen s) (mapIndex vp s.glat.gp) with
  | none => simp only [mapRaw, hglat, hcfg, hlen, hsel]; rfl
  | some i =>
    have htable : tableAt (rewriteStores a b s) i = tableAt s i := rfl
    cases hentry : tableAt s i <;> simp only [mapRaw, mapAt, hglat, hcfg, hlen, hsel, htable, hentry] <;> rfl

theorem mapVoice_rewriteStores (hb : KeepsValues b) (v : Voice) (s : State) :
    mapVoice v (rewriteStores a b s) = mapNext (rewriteStores a b) (mapVoice v s) := by
  have hp' : voiceSlotP (rewriteStores a b s) v = voiceSlotP s v := rfl
  have hw' : voiceSlotW (rewriteStores a b s) v = voiceSlotW s v := rfl
  cases hp : readSlot s (voiceSlotP s v) <;> cases hw : readSlot s (voiceSlotW s v) <;>
    simp only [mapVoice, readSlot_rewriteStores hb, hp', hw', hp, hw, mapRaw_rewriteStores, mapNext_fault]

/-- An instruction commutes with rewriting the oscillator registers and the `VALID` flags, if the one operation on those
stores that it may be does. -/
theorem exec_rewriteStores {i : Instr} {s : State} (hb : KeepsValues b)
    (htick : ∀ v g ph, i = .oscTick v g ph → tickVoice v (rewriteStores a b s) = rewriteStores a b (tickVoice v s))
    (hset : ∀ v g ph, i = .oscSet v g ph → setVoice v (rewriteStores a b s) = rewriteStores a b (setVoice v s))
    (hstore : ∀ g ph, i = .smpComplete g ph →
      storeSample (rewriteStores a b s) = mapNext (rewriteStores a b) (storeSample s)) :
    exec i (rewriteStores a b s) = mapNext (rewriteStores a b) (exec i s) := by
  cases i with
  | smpBegin g ph => exact guarded_mapNext rfl rfl (by rw [beginSample_rewriteStores]; rfl)
  | tickWait g ph =>
    have hflag : (rewriteStores a b s).tmr.elapsed = s.tmr.elapsed := rfl
    refine guarded_mapNext rfl rfl ?_
    cases he : s.tmr.elapsed <;> simp only [hflag, he] <;> rfl
  | oscTick v g ph => exact guarded_mapNext rfl rfl (by rw [htick v g ph rfl]; rfl)
  | portWrite g ph => exact guarded_mapNext rfl rfl rfl
  | globalRead g ph => exact guarded_mapNext rfl rfl (readGlobals_rewriteStores hb s)
  | map v g ph =>
    have hvalid : (rewriteStores a b s).glat.valid = s.glat.valid := rfl
    refine guarded_mapNext rfl rfl ?_
    cases he : s.glat.valid <;> simp only [hvalid, he, mapVoice_rewriteStores hb] <;> rfl
  | oscSet v g ph =>
    have hvalid : (rewriteStores a b s).mapout.valid = s.mapout.valid := rfl
    refine guarded_mapNext rfl rfl ?_
    cases he : s.mapout.valid <;> simp only [hvalid, he, hset v g ph rfl] <;> rfl
  | smpComplete g ph =>
    have hdone : (rewriteStores a b s).adc.done = s.adc.done := rfl
    refine guarded_mapNext rfl rfl ?_
    cases he : s.adc.done <;> simp only [hdone, he, hstore g ph rfl] <;> rfl
  | cntInc g ph => exact guarded_mapNext rfl rfl rfl
  | loop g ph => exact guarded_mapNext rfl rfl rfl

/-! ### The registers of another voice -/

theorem oscOf_replaceOther {u v : Voice} (h : u ≠ v) (o : Osc) (s : State) :
    oscOf (rewriteStores (fun t => PerVoice.set t u o) b s) v = oscOf s v :=
  perVoice_get_set_other _ _ _ _ (Ne.symm h)

theorem tickVoice_replaceOther {u v : Voice} (h : u ≠ v) (o : Osc) (s : State) :
    tickVoice v (rewriteStores (fun t => PerVoice.set t u o) b s)
      = rewriteStores (fun t => PerVoice.set t u o) b (tickVoice v s) := by
  simp only [tickVoice, oscOf_replaceOther h]
  simp only [rewriteStores, perVoice_set_comm _ _ _ _ _ h]
  rfl

theorem setVoice_replaceOther {u v : Voice} (h : u ≠ v) (o : Osc) (s : State) :
    setVoice v (rewriteStores (fun t => PerVoice.set t u o) b s)
      = rewriteStores (fun t => PerVoice.set t u o) b (setVoice v s) := by
  simp only [setVoice, oscOf_replaceOther h]
  simp only [rewriteStores, perVoice_set_comm _ _ _ _ _ h]

theorem storeSample_rewriteOsc (s : State) :
    storeSample (rewriteStores a (fun l => l) s) = mapNext (rewriteStores a fun l => l) (storeSample s) := by
  have hslot : slotAt (rewriteStores a (fun l => l) s) s.ch.toNat = slotAt s s.ch.toNat := rfl
  have hch : (rewriteStores a (fun l => l) s).ch = s.ch := rfl
  cases hx : slotAt s s.ch.toNat <;> simp only [storeSample, hch, hslot, hx] <;> rfl

/-! ### The `VALID` flags -/

theorem forgetValid_eq_rewriteStores :
    forgetValid = rewriteStores (fun o => o) (fun l => l.map fun x => { x with valid := false }) := rfl

theorem forgetValid_forgetValid (s : State) : forgetValid (forgetValid s) = forgetValid s := by
  simp [forgetValid]

theorem mapNext_forgetValid_idem (o : Result) :
    mapNext forgetValid (mapNext forgetValid o) = mapNext forgetValid o := by
  cases o with
  | next s => exact congrArg Host.Outcome.next (forgetValid_forgetValid s)
  | fault r => rfl
  | refused r => rfl

/-- `SMP_COMPLETE` sets one flag; with the flags forgotten after it, it does the same whatever they were before. -/
theorem storeSample_forgetValid (s : State) :
    mapNext forgetValid (storeSample (forgetValid s)) = mapNext forgetValid (storeSample s) := by
  have hslot : slotAt (forgetValid s) s.ch.toNat
      = (slotAt s s.ch.toNat).map fun x => { x with valid := false } := List.getElem?_map ..
  have hch : (forgetValid s).ch = s.ch := rfl
  cases hx : slotAt s s.ch.toNat with
  | none => simp [storeSample, hch, hslot, hx]
  | some x =>
    simp only [storeSample, hch, hslot, hx, Option.map_some, mapNext_next]
    simp [forgetValid, advance, writeSlot, List.map_set, nextChannel, channels, Function.comp_def]

end Sys2Proof.Machine

namespace Sys2Proof.Proofs

open Sys2Proof.Machine Sys2Proof.Safety

/-- Settles O23: of the operations on a voice's registers, only those of another voice are left, and writes to two
voices commute. -/
theorem voicesDoNotInterfere : Obligations.VoicesDoNotInterfere := by
  intro u i s o hother
  refine exec_rewriteStores (a := fun t => PerVoice.set t u o) keepsValues_id ?_ ?_
    fun _ _ _ => storeSample_rewriteOsc s
  · rintro v g ph rfl
    exact tickVoice_replaceOther (fun huv => (hother g ph).1 (by rw [huv])) o s
  · rintro v g ph rfl
    exact setVoice_replaceOther (fun huv => (hother g ph).2 (by rw [huv])) o s

/-- Settles O24: all instructions but `SMP_COMPLETE` carry the flags along; it sets one, which is then forgotten. -/
theorem validFlagsAreNeverRead : Obligations.ValidFlagsAreNeverRead := by
  intro i s
  cases i with
  | smpComplete g ph =>
    cases hg : guardPasses g ph s with
    | false =>
      rw [exec_skipped (i := .smpComplete g ph) hg, exec_skipped (i := .smpComplete g ph) (s := forgetValid s) hg]
      exact congrArg Host.Outcome.next (forgetValid_forgetValid (advance s))
    | true =>
      rw [exec_smpComplete hg, exec_smpComplete (s := forgetValid s) hg]
      have hdone : (forgetValid s).adc.done = s.adc.done := rfl
      cases hd : s.adc.done <;> simp only [hdone, hd]
      · exact congrArg Host.Outcome.next (forgetValid_forgetValid s)
      · exact storeSample_forgetValid s
  | _ =>
    rw [forgetValid_eq_rewriteStores, exec_rewriteStores keepsValues_clearValid (fun _ _ _ _ => rfl)
      (fun _ _ _ _ => rfl) (by simp), ← forgetValid_eq_rewriteStores, mapNext_forgetValid_idem]

end Sys2Proof.Proofs
end

section
/-! A countdown within its period (10_state.md R22). -/

namespace Sys2Proof.Machine

open Sys2Proof.Safety

theorem execTimes_succ_next {i : Instr} {n : Nat} {s t : State} (h : exec i s = .next t) :
    execTimes i (n + 1) s = execTimes i n t := by
  simp only [execTimes, h]

/-- A countdown of 1 to P is reloaded with P at 1, and one less above. -/
theorem nextCountdown_mem_period {o : Osc} (h1 : 1 ≤ o.c.toNat) (hp : o.c.toNat ≤ o.p.toNat) :
    1 ≤ (nextCountdown o).toNat ∧ (nextCountdown o).toNat ≤ o.p.toNat := by
  by_cases hc : o.c.toNat = 1
  · rw [nextCountdown_of_one hc]
    omega
  · have hlt := o.c.isLt
    rw [nextCountdown_of_ne_one hc]
    omega

end Sys2Proof.Machine

namespace Sys2Proof.Proofs

open Sys2Proof.Machine Sys2Proof.Safety

/-- Settles O44, by induction on the number of ticks: one tick keeps the countdown in its period and
the other two registers. -/
theorem countdownStaysInItsPeriod : Obligations.CountdownStaysInItsPeriod := by
  intro v n
  induction n with
  | zero => exact fun s h1 hp => ⟨s, rfl, rfl, rfl, h1, hp⟩
  | succ n ih =>
    intro s h1 hp
    have hosc : oscOf (advance (tickVoice v s)) v = { oscOf s v with c := nextCountdown (oscOf s v) } :=
      oscOf_tickVoice_same v s
    obtain ⟨h1', hp'⟩ := nextCountdown_mem_period h1 hp
    obtain ⟨t, ht, htp, htw, ht1, htc⟩ :=
      ih (advance (tickVoice v s)) (by rw [hosc]; exact h1') (by rw [hosc]; exact hp')
    rw [hosc] at htp htw htc
    exact ⟨t, by rw [execTimes_succ_next (exec_oscTick (guardPasses_off 0 s)), ht], htp, htw, ht1, htc⟩

end Sys2Proof.Proofs
end

section
/-! The invariant at reset, and what it rules out: from a state with it no instruction stops the machine. -/

namespace Sys2Proof.Machine

open Sys2Proof.Safety

/-- The invariant holds right after reset under any parameters and micro-program (10_state.md R41). -/
theorem inv_atReset (cfg : Params) (rom : Rom) (es : List EnvMove) (m : Nat) : Inv (State.atReset cfg rom es m) where
  storage := atReset_wf cfg rom es m
  held _ := ⟨m, rfl⟩
  legal h := by simp at h
  channel h := by simp at h
  stale x hx _ := by
    obtain rfl := List.eq_of_mem_replicate hx
    rfl
  pulse := by simp
  output i _ := by simp
  adc := by simp
  timer h := by simp at h
  port := rfl
  tableReads a d h := by simp at h
  faultClear _ := ⟨rfl, rfl⟩
  faultUpc h := absurd rfl h
  faultIndex h := by simp at h

theorem defaultRomFacts_atReset (cfg : Params) (rom : Rom) (es : List EnvMove) (m : Nat) :
    DefaultRomFacts (State.atReset cfg rom es m) where
  faults := .inl rfl
  globals h := absurd h (by simp)
  mapped0 h := absurd h (by simp)
  mapped1 h := absurd h (by simp)
  mapped2 h := absurd h (by simp)
  frame h := absurd h (by simp)
  inFlight h := absurd h (by simp)
  sample h := absurd h (by simp)

/-! ### No instruction stops the machine -/

theorem voiceSlotP_mem_roleSlots (s : State) (v : Voice) : voiceSlotP s v ∈ roleSlots s.cfg := by
  cases v <;> simp [roleSlots, voiceSlotP, PerVoice.get]

theorem voiceSlotW_mem_roleSlots (s : State) (v : Voice) : voiceSlotW s v ∈ roleSlots s.cfg := by
  cases v <;> simp [roleSlots, voiceSlotW, PerVoice.get]

section
variable {s : State} (hi : Inv s) (hr : s.rst = false)
include hi hr

theorem allowed_of_inv : AllowedByR10 s.cfg := (paramsLegal_iff s.cfg).mp (hi.legal hr)

/-- A slot that the configuration gives a role to exists (00_scope.md R10, 20_memory.md R51). -/
theorem role_slot_exists {j : Nat} (hj : j ∈ roleSlots s.cfg) : ∃ x, readSlot s j = some x := by
  obtain ⟨-, -, hroles, -⟩ := allowed_of_inv hi hr
  have hlen : s.slots.length = s.cfg.nCh := (Memory.wf_iff s).mp hi.storage
  exact ⟨_, readSlot_of_lt (by rw [hlen]; exact hroles j hj)⟩

theorem readGlobals_total : ∃ t, readGlobals s = .next t := by
  obtain ⟨gp, hp⟩ := role_slot_exists hi hr (j := s.cfg.gslotP) (by simp [roleSlots])
  obtain ⟨gw, hw⟩ := role_slot_exists hi hr (j := s.cfg.gslotW) (by simp [roleSlots])
  exact ⟨_, by simp only [readGlobals, hp, hw]; rfl⟩

theorem mapRaw_total (vp vw : Word) : ∃ t, mapRaw vp vw s = .next t := by
  obtain ⟨-, -, -, -, -, -, hmin, -⟩ := allowed_of_inv hi hr
  have hentry : ∀ j, j < s.cfg.table.length → ∃ t, mapAt j vw s.glat.gw s = .next t := by
    intro j hj
    exact ⟨_, by simp only [mapAt, tableAt, List.getElem?_eq_getElem hj]; rfl⟩
  obtain ⟨hlt, hs⟩ | ⟨-, -, hs⟩ | ⟨-, -, hs⟩ :=
    selectIndex_cases s.cfg.indexPolicy (tableLen s) (mapIndex vp s.glat.gp) <;> simp only [mapRaw, hs]
  · exact hentry _ hlt
  · exact ⟨_, rfl⟩
  · exact hentry _ (by rw [tableLen]; omega)

theorem mapVoice_total (v : Voice) : ∃ t, mapVoice v s = .next t := by
  obtain ⟨vp, hp⟩ := role_slot_exists hi hr (voiceSlotP_mem_roleSlots s v)
  obtain ⟨vw, hw⟩ := role_slot_exists hi hr (voiceSlotW_mem_roleSlots s v)
  rw [mapVoice_of_slots hp hw]
  exact mapRaw_total hi hr vp vw

theorem storeSample_total : ∃ t, storeSample s = .next t := by
  have hlen : s.slots.length = s.cfg.nCh := (Memory.wf_iff s).mp hi.storage
  have hslot : slotAt s s.ch.toNat = some (s.slots[s.ch.toNat]'(by rw [hlen]; exact hi.channel hr)) :=
    List.getElem?_eq_getElem _
  exact ⟨_, by simp only [storeSample, hslot]; rfl⟩

/-- No instruction stops the machine under a configuration that 00_scope.md R10 allows (log 10). -/
theorem exec_total (i : Instr) : ∃ t, exec i s = .next t := by
  cases hg : guardPasses i.guardOn i.guardPhase s with
  | false => exact ⟨_, exec_skipped hg⟩
  | true =>
    cases i with
    | smpBegin g ph => exact ⟨_, exec_smpBegin (g := g) (ph := ph) hg⟩
    | tickWait g ph => rw [exec_tickWait (g := g) (ph := ph) hg]; split <;> exact ⟨_, rfl⟩
    | oscTick v g ph => exact ⟨_, exec_oscTick (g := g) (ph := ph) hg⟩
    | portWrite g ph => exact ⟨_, exec_portWrite (g := g) (ph := ph) hg⟩
    | globalRead g ph => rw [exec_globalRead (g := g) (ph := ph) hg]; exact readGlobals_total hi hr
    | map v g ph =>
      rw [exec_map (g := g) (ph := ph) hg]
      split
      · exact mapVoice_total hi hr v
      · exact ⟨_, rfl⟩
    | oscSet v g ph => rw [exec_oscSet (g := g) (ph := ph) hg]; split <;> exact ⟨_, rfl⟩
    | smpComplete g ph =>
      rw [exec_smpComplete (g := g) (ph := ph) hg]
      split
      · exact storeSample_total hi hr
      · exact ⟨_, rfl⟩
    | cntInc g ph => exact ⟨_, exec_cntInc (g := g) (ph := ph) hg⟩
    | loop g ph => exact ⟨_, exec_loop (g := g) (ph := ph) hg⟩

theorem blockStep_total : ∃ t, blockStep s = .next t := by
  by_cases hc : s.fault.cause = .none
  · cases hd : decode (fetch s) with
    | error e => exact ⟨raiseFault .illegal (fetch s) s, by simp [blockStep, hc, hd]⟩
    | ok i => rw [blockStep_running hc hd]; exact exec_total hi hr i
  · exact ⟨s, blockStep_halted hc⟩

end

/-- From a state with the invariant a step answers a next state, but for the release of reset under a configuration that
00_scope.md R10 forbids. -/
theorem step_total {s : State} (hi : Inv s) :
    (∃ t, step s = .next t) ∨ (step s = .refused .illegalConfiguration ∧ s.rst = true ∧ paramsLegal s.cfg = false) := by
  cases hr : s.rst with
  | false =>
    obtain ⟨u, hu⟩ := blockStep_total hi hr
    exact .inl ⟨environment u, by rw [step_out_of_reset hr, hu, mapNext_next]⟩
  | true =>
    have hcfg : (consumeMove s).cfg = s.cfg := rfl
    rw [step_in_reset hr, heldStep]
    cases (nextMove s).host with
    | reset => exact .inl ⟨_, rfl⟩
    | supply cfg rom => exact .inl ⟨_, rfl⟩
    | idle =>
      cases hl : paramsLegal s.cfg with
      | true => exact .inl ⟨_, by simp only [hcfg, hl]; rfl⟩
      | false => exact .inr ⟨by simp [hl], rfl, rfl⟩

end Sys2Proof.Machine

namespace Sys2Proof.Proofs

open Sys2Proof.Machine Sys2Proof.Safety

/-- Settles O35: `State.reset` is the state of 10_state.md R41 under this hardware's parameters. -/
theorem invariantHoldsAtReset : Obligations.InvariantHoldsAtReset :=
  ⟨inv_atReset _ _ _ _, fun _ => defaultRomFacts_atReset _ _ _ _⟩

/-- Settles O31: the block's attempt answers some state with the same parameters and micro-program, and reset then
overwrites the rest of it. -/
theorem resetGivesTheResetValues : Obligations.ResetGivesTheResetValues := by
  intro s hi hr hreset
  obtain ⟨u, hu⟩ := blockStep_total hi hr
  obtain ⟨hrom, hcfg, -⟩ := blockStep_keeps_environment hu
  obtain ⟨-, he⟩ | ⟨hn, -⟩ := environment_cases u
  · refine ⟨environment u, by rw [step_out_of_reset hr, hu, mapNext_next], ?_⟩
    rw [he, applyReset_eq, consumeMove_cfg, consumeMove_rom, hcfg, hrom]
    refine ⟨rfl, fun j hj => ?_, ?_, rfl, rfl, rfl, rfl, rfl, rfl, rfl, rfl, rfl, rfl, rfl, rfl, rfl, rfl, rfl⟩
    · rw [atReset_slots, List.getElem?_replicate, if_pos hj]
    · rw [atReset_slots, List.length_replicate]
  · exact absurd (by rw [blockStep_keeps_nextMove hu, hreset]) hn

end Sys2Proof.Proofs
end

section
/-! Every step keeps the invariant: one lemma for each update of the state, then the paths of `exec`, then a step. Each
field that an update cannot touch is carried over; the fields written out are those it can. -/

namespace Sys2Proof.Machine

open Sys2Proof.Safety

/-! ### The updates of the running block -/

section
variable {s : State} (hi : Inv s) (hr : Running s)
include hi hr

theorem inv_of_running_upc (u : Nibble) : Inv { s with upc := u } :=
  { hi with
    held := fun h => absurd h (by simp [hr.1])
    faultUpc := fun h => absurd hr.2 h }

theorem inv_advance : Inv (advance s) := inv_of_running_upc hi hr _

theorem inv_raiseFault {c : Cause} {x : Word} (hc : c ≠ .none)
    (hindex : c = .idx → s.cfg.indexPolicy = .fault ∧ s.cfg.table.length ≤ x.toNat ∧ x.toNat ≤ 32767) :
    Inv (raiseFault c x s) :=
  { hi with
    held := fun h => absurd h (by simp [hr.1])
    faultClear := fun h => absurd h hc
    faultUpc := fun _ => rfl
    faultIndex := hindex }

theorem inv_adcStart (c : Nibble) : Inv (adcStart c s) :=
  { hi with
    held := fun h => absurd h (by simp [hr.1])
    adc := by simp
    tableReads := fun a d h => hi.tableReads a d (by simpa using h) }

theorem inv_tickClear : Inv (tickClear s) :=
  { hi with
    held := fun h => absurd h (by simp [hr.1])
    tableReads := fun a d h => hi.tableReads a d (by simpa using h) }

theorem inv_portOut (b : Byte) : Inv (portOut b s) :=
  { hi with
    held := fun h => absurd h (by simp [hr.1])
    port := rfl
    tableReads := fun a d h => hi.tableReads a d (by simpa using h) }

theorem inv_tickVoice (v : Voice) : Inv (tickVoice v s) :=
  { hi with
    held := fun h => absurd h (by simp [hr.1])
    output := by
      intro i hout
      have hne : i ≠ voiceBit s v := by
        rintro rfl
        exact hout (by cases v <;> simp [voiceBits, voiceBit, PerVoice.get])
      rw [tickVoice_outacc, setBit_getLsbD, if_neg hne]
      exact hi.output i hout }

theorem inv_setVoice (v : Voice) : Inv (setVoice v s) :=
  { hi with held := fun h => absurd h (by simp [hr.1]) }

theorem inv_setGlat (l : GlobalLatch) : Inv { s with glat := l } :=
  { hi with held := fun h => absurd h (by simp [hr.1]) }

theorem inv_setTc (x : Byte) : Inv { s with tc := x } :=
  { hi with held := fun h => absurd h (by simp [hr.1]) }

theorem inv_storeSample (x : Word) : Inv { writeSlot s s.ch.toNat x with ch := nextChannel s } :=
  { hi with
    storage := writeSlot_wf _ _ hi.storage
    held := fun h => absurd h (by simp [hr.1])
    channel := by
      intro _
      obtain ⟨hmin, hmax, -⟩ := allowed_of_inv hi hr.1
      have hlt := Nat.mod_lt (s.ch.toNat + 1) (show 0 < s.cfg.nCh by omega)
      show (BitVec.ofNat 4 ((s.ch.toNat + 1) % s.cfg.nCh)).toNat < s.cfg.nCh
      rw [BitVec.toNat_ofNat, Nat.mod_eq_of_lt (by omega)]
      exact hlt
    stale := by
      intro y hy hinvalid
      obtain hy | rfl := List.mem_or_eq_of_mem_set hy
      · exact hi.stale y hy hinvalid
      · cases hinvalid }

theorem inv_afterMap {i : Nat} {period : Word} (vw : Word) (hle : i ≤ 32767)
    (hentry : s.cfg.table[i]? = some period) : Inv (afterMap i period vw s) :=
  { hi with
    held := fun h => absurd h (by simp [hr.1])
    faultUpc := fun h => absurd hr.2 h
    pulse := two_mul_mapPulse_le _ _ _
    tableReads := by
      intro a d h
      obtain heq | h := List.mem_cons.mp h
      · injection heq with ha hd
        rw [ha, hd, BitVec.toNat_ofNat, Nat.mod_eq_of_lt (by omega)]
        exact hentry
      · exact hi.tableReads a d h }

theorem exec_keeps_inv {i : Instr} {t : State} (h : exec i s = .next t) : Inv t := by
  cases execPath_of_exec h with
  | skipped _ => exact inv_advance hi hr
  | startRefused _ _ => exact inv_advance hi hr
  | started => exact inv_advance (inv_adcStart hi hr _) hr
  | tickTaken => exact inv_advance (inv_tickClear hi hr) hr
  | tickAwaited _ => exact hi
  | ticked => exact inv_advance (inv_tickVoice hi hr _) hr
  | portWritten => exact inv_advance (inv_portOut hi hr _) hr
  | globalsRead gp gw => exact inv_advance (inv_setGlat hi hr _) hr
  | mapped i period vw hle hentry => exact inv_afterMap hi hr vw hle hentry
  | mapIndexFault index hle hlen hpolicy =>
    refine inv_raiseFault hi hr (by simp) fun _ => ?_
    rw [BitVec.toNat_ofNat, Nat.mod_eq_of_lt (by omega)]
    exact ⟨hpolicy, hlen, hle⟩
  | mapLatchFault _ => exact inv_raiseFault hi hr (by simp) (by simp)
  | retuned => exact inv_advance (inv_setVoice hi hr _) hr
  | setLatchFault _ _ => exact inv_raiseFault hi hr (by simp) (by simp)
  | stored _ => exact inv_advance (inv_storeSample hi hr _) hr
  | sampleAwaited _ => exact hi
  | counted => exact inv_advance (inv_setTc hi hr _) hr
  | looped => exact inv_of_running_upc hi hr _

end

theorem blockStep_keeps_inv {s t : State} (hi : Inv s) (hr : s.rst = false) (h : blockStep s = .next t) : Inv t := by
  obtain ⟨-, rfl⟩ | ⟨hc, _, -, rfl⟩ | ⟨hc, i, -, h⟩ := blockStep_cases h
  · exact hi
  · exact inv_raiseFault hi ⟨hr, hc⟩ (by simp) (by simp)
  · exact exec_keeps_inv hi ⟨hr, hc⟩ h

/-! ### The environment, and a step -/

/-- A held reset keeps the moment it was applied at (10_state.md R41, log 5), whatever moves follow. -/
theorem inv_consumeMove {s : State} (hi : Inv s) : Inv (consumeMove s) :=
  { hi with
    held := by
      intro h
      obtain ⟨m, hs⟩ := hi.held h
      refine ⟨m, ?_⟩
      rw [consumeMove, hs]
      rfl }

theorem inv_releaseReset {s : State} (hi : Inv s) (hr : s.rst = true) (hl : paramsLegal s.cfg = true) :
    Inv (releaseReset s) := by
  obtain ⟨m, hs⟩ := hi.held hr
  have hnCh : 8 ≤ s.cfg.nCh := ((paramsLegal_iff _).mp hl).1
  have hch : s.ch = 0 := by rw [hs]; rfl
  have hport : s.port = none := by rw [hs]; rfl
  have hevents : s.events = [] := by rw [hs]; rfl
  exact { hi with
    held := fun h => absurd h (by simp)
    legal := fun _ => hl
    channel := fun _ => by simp [hch]; omega
    timer := fun _ => ⟨rfl, rfl, by simp [hevents, timerStarts]⟩
    port := by simp [hport, hevents, lastPortWrite]
    tableReads := fun a d h => by simp [hevents] at h }

/-- The agents leave the ADC alone, or complete the conversion in flight (42_sampler.md R142). -/
theorem agentsMove_adc_cases (e : EnvMove) (s : State) :
    (agentsMove e s).adc = s.adc
      ∨ ∃ r, s.adc.busy = true ∧ (agentsMove e s).adc = { s.adc with busy := false, done := true, result := r } := by
  have hadc : (timerMove e.timerElapses s).adc = s.adc := timerMove_adc _ _
  rw [agentsMove]
  cases hb : s.adc.busy with
  | false => rw [adcMove_idle _ _ (by rw [hadc, hb]), hadc]; exact .inl rfl
  | true =>
    cases e.adcCompletes with
    | none => rw [adcMove_none, hadc]; exact .inl rfl
    | some r => rw [adcMove_busy_adc _ _ (by rw [hadc, hb]), hadc]; exact .inr ⟨r, rfl, rfl⟩

theorem inv_agentsMove {s : State} (hi : Inv s) (hr : s.rst = false) (e : EnvMove) : Inv (agentsMove e s) where
  storage := Memory.wf_of_eq (by simp) (by simp) hi.storage
  held h := absurd h (by simp [hr])
  legal _ := by simpa using hi.legal hr
  channel _ := by simpa using hi.channel hr
  stale := by simpa using hi.stale
  pulse := by simpa using hi.pulse
  output := by simpa using hi.output
  adc := by
    obtain he | ⟨r, -, he⟩ := agentsMove_adc_cases e s <;> rw [he]
    · exact hi.adc
    · simp
  timer _ := by simpa using hi.timer hr
  port := by simpa using hi.port
  tableReads := by simpa using hi.tableReads
  faultClear := by simpa using hi.faultClear
  faultUpc := by simpa using hi.faultUpc
  faultIndex := by simpa using hi.faultIndex

theorem step_keeps_inv {s t : State} (hi : Inv s) (h : step s = .next t) : Inv t := by
  obtain ⟨hr, h⟩ | ⟨hr, u, hu, rfl⟩ := step_cases h
  · obtain ⟨-, rfl⟩ | ⟨_, _, -, rfl⟩ | ⟨-, hl, rfl⟩ := heldStep_cases h
    · exact inv_consumeMove hi
    · exact inv_atReset _ _ _ _
    · exact inv_agentsMove (inv_releaseReset (inv_consumeMove hi) hr hl) rfl _
  · obtain ⟨-, he⟩ | ⟨-, he⟩ := environment_cases u <;> rw [he]
    · exact inv_atReset _ _ _ _
    · obtain ⟨-, -, hur, -⟩ := blockStep_keeps_environment hu
      exact inv_agentsMove (inv_consumeMove (blockStep_keeps_inv hi hr hu)) (hur.trans hr) _

end Sys2Proof.Machine
end

section
/-! The default micro-program (43_scheduler.md R161): where each instruction stands in it, the facts every step keeps
under it, and a run from reset. -/

namespace Sys2Proof.Machine

open Sys2Proof.Safety

/-! ### Where an instruction stands -/

/-- Where each operation stands in the default micro-program. -/
def defaultPlace : Instr → Nibble
  | .smpBegin _ _ => 0
  | .tickWait _ _ => 1
  | .oscTick v _ _ => 2 + fieldOfVoice v
  | .portWrite _ _ => 5
  | .globalRead _ _ => 6
  | .map v _ _ => mapPlace v
  | .oscSet v _ _ => mapPlace v + 1
  | .smpComplete _ _ => 13
  | .cntInc _ _ => 14
  | .loop _ _ => 15

/-- The phase that guards each operation in the default micro-program. -/
def defaultGuard : Instr → Option Nibble
  | .map v _ _ => some (mapPhase v)
  | .oscSet v _ _ => some (mapPhase v)
  | .smpComplete _ _ => some 0
  | _ => none

/-- The instruction is the one that the default micro-program has at this place. -/
def standsAt (i : Instr) (u : Nibble) : Bool :=
  u == defaultPlace i && i.guardOn == (defaultGuard i).isSome && i.guardPhase == (defaultGuard i).getD 0

theorem defaultRom_standsAt (k : Fin 16) :
    ∃ i, decode Config.defaultRom[k.val] = .ok i ∧ standsAt i (BitVec.ofFin k) = true := by
  have hall : ∀ k : Fin 16,
      (decode Config.defaultRom[k.val]).toOption.any (standsAt · (BitVec.ofFin k)) = true := by decide
  have hk := hall k
  cases hd : decode Config.defaultRom[k.val] with
  | error e => simp [hd, Except.toOption] at hk
  | ok i => exact ⟨i, rfl, by simpa [hd, Except.toOption] using hk⟩

theorem standsAt_of_decode {s : State} {i : Instr} (hrom : s.rom = Config.defaultRom)
    (hi : decode (fetch s) = .ok i) : standsAt i s.upc = true := by
  obtain ⟨j, hj, hstands⟩ := defaultRom_standsAt s.upc.toFin
  have hfetch : fetch s = Config.defaultRom[s.upc.toNat] := fetch_defaultRom hrom s.upc.isLt rfl
  rw [hfetch] at hi
  obtain rfl : i = j := Except.ok.inj (hi.symm.trans hj)
  exact hstands

theorem standsAt_place {i : Instr} {u : Nibble} (h : standsAt i u = true) : u = defaultPlace i := by
  simp only [standsAt, Bool.and_eq_true, beq_iff_eq] at h
  exact h.1.1

/-- A guarded operation stands there with its guard on, at its phase. -/
theorem standsAt_guard {i : Instr} {u ph : Nibble} (h : standsAt i u = true) (hg : defaultGuard i = some ph) :
    i.guardOn = true ∧ i.guardPhase = ph := by
  simp only [standsAt, hg, Bool.and_eq_true, beq_iff_eq] at h
  exact ⟨h.1.2, h.2⟩

/-- Only the operations with a phase of their own are guarded. -/
theorem defaultGuard_isSome {i : Instr} {u : Nibble} (h : standsAt i u = true) (hg : i.guardOn = true) :
    (defaultGuard i).isSome = true := by
  simp only [standsAt, hg, Bool.and_eq_true, beq_iff_eq] at h
  exact h.1.2.symm

theorem mapPlace_bounds (v : Voice) :
    7 ≤ (mapPlace v).toNat ∧ (mapPlace v).toNat ≤ 11 ∧ (mapPlace v + 1).toNat = (mapPlace v).toNat + 1 := by
  cases v <;> decide

/-- `OSC_SET v` stands where no `MAP` does. -/
theorem mapPlace_add_one_ne (v w : Voice) : mapPlace v + 1 ≠ mapPlace w := by
  cases v <;> cases w <;> decide

/-- The guarded words are those from the first `MAP` to `SMP_COMPLETE`. -/
theorem place_of_guarded {i : Instr} {u : Nibble} (h : standsAt i u = true) (hg : i.guardOn = true) :
    7 ≤ u.toNat ∧ u.toNat ≤ 13 := by
  have hsome := defaultGuard_isSome h hg
  rw [standsAt_place h]
  cases i with
  | map v g ph =>
    obtain ⟨hlo, hhi, -⟩ := mapPlace_bounds v
    exact ⟨hlo, by rw [defaultPlace]; omega⟩
  | oscSet v g ph =>
    obtain ⟨hlo, hhi, hsucc⟩ := mapPlace_bounds v
    rw [defaultPlace]
    omega
  | smpComplete g ph => simp [defaultPlace]
  | _ => cases hsome

/-- Where `MAP v` stands there is `MAP v`, guarded by its phase. -/
theorem standsAt_mapPlace {i : Instr} {v : Voice} (h : standsAt i (mapPlace v) = true) :
    i = .map v true (mapPhase v) := by
  have hplace := standsAt_place h
  cases i with
  | map w g ph =>
    obtain rfl : v = w := by
      revert hplace
      cases v <;> cases w <;> simp [defaultPlace, mapPlace]
    obtain ⟨hg, hph⟩ := standsAt_guard h rfl
    rw [← hg, ← hph]
    rfl
  | oscSet w g ph => exact absurd hplace.symm (mapPlace_add_one_ne w v)
  | oscTick w g ph => cases v <;> cases w <;> simp [mapPlace, defaultPlace, fieldOfVoice] at hplace
  | _ => cases v <;> simp [mapPlace, defaultPlace] at hplace

/-! ### What the default micro-program keeps -/

theorem mapout_valid_of_facts {s : State} (hf : DefaultRomFacts s) {v : Voice} (hu : s.upc = mapPlace v + 1)
    (hp : phase s = mapPhase v) : s.mapout.valid = true := by
  cases v with
  | v0 => exact hf.mapped0 hu hp
  | v1 => exact hf.mapped1 hu hp
  | v2 => exact hf.mapped2 hu hp

/-- The facts at a place where no `OSC_SET` stands. -/
theorem defaultRomFacts_elsewhere {t : State}
    (hfaults : t.fault.cause = .none ∨ (t.fault.cause = .idx ∧ t.cfg.indexPolicy = .fault))
    (hplace : ∀ v, t.upc ≠ mapPlace v + 1) (hglobals : 6 < t.upc.toNat → t.glat.valid = true)
    (hframe : 5 < t.upc.toNat → t.port = some t.outacc) (hinFlight : t.adc.busy = true → t.adc.ch = t.ch)
    (hsample : 0 < t.upc.toNat → t.upc.toNat ≤ 13 → (t.adc.busy = true ∨ t.adc.done = true) ∧ t.adc.ch = t.ch) :
    DefaultRomFacts t where
  faults := hfaults
  globals := hglobals
  mapped0 h := absurd h (hplace .v0)
  mapped1 h := absurd h (hplace .v1)
  mapped2 h := absurd h (hplace .v2)
  frame := hframe
  inFlight := hinFlight
  sample := hsample

/-- The facts before `PORT_WRITE`: of the latches and the port nothing is said there. -/
theorem defaultRomFacts_early {t : State}
    (hfaults : t.fault.cause = .none ∨ (t.fault.cause = .idx ∧ t.cfg.indexPolicy = .fault)) (hu : t.upc.toNat ≤ 5)
    (hinFlight : t.adc.busy = true → t.adc.ch = t.ch)
    (hsample : 0 < t.upc.toNat → (t.adc.busy = true ∨ t.adc.done = true) ∧ t.adc.ch = t.ch) : DefaultRomFacts t :=
  defaultRomFacts_elsewhere hfaults
    (by
      intro v h
      obtain ⟨hlo, -, hsucc⟩ := mapPlace_bounds v
      rw [h] at hu
      omega)
    (fun h => absurd h (by omega)) (fun h => absurd h (by omega)) hinFlight (fun h _ => hsample h)

section
variable {s : State} (hf : DefaultRomFacts s)
include hf

/-- If the word after a skipped one is `OSC_SET v`, the skipped one was `MAP v`, and this is not the phase of
either. -/
theorem facts_skipped {i : Instr} (hst : standsAt i s.upc = true)
    (hg : guardPasses i.guardOn i.guardPhase s = false) : DefaultRomFacts (advance s) := by
  have hon : i.guardOn = true := by
    by_contra hoff
    simp [guardPasses, hoff] at hg
  obtain ⟨hlo, hhi⟩ := place_of_guarded hst hon
  have hupc := advance_upc_toNat s
  have hmapped : ∀ v, (advance s).upc = mapPlace v + 1 → phase s = mapPhase v → s.mapout.valid = true := by
    intro v hu hp
    have hu' : s.upc = mapPlace v := by simpa using hu
    rw [hu'] at hst
    rw [standsAt_mapPlace hst] at hg
    simp [Instr.guardOn, Instr.guardPhase, guardPasses_on, hp] at hg
  exact { hf with
    globals := fun _ => hf.globals (by omega)
    mapped0 := hmapped .v0
    mapped1 := hmapped .v1
    mapped2 := hmapped .v2
    frame := fun _ => hf.frame (by omega)
    sample := fun _ h => hf.sample (by omega) (by omega) }

theorem facts_started (hu : s.upc = 0) : DefaultRomFacts (advance (adcStart s.ch s)) :=
  defaultRomFacts_early hf.faults (by simp [hu]) (by simp) (by simp)

theorem facts_startRefused (hu : s.upc = 0) (hbusy : s.adc.busy = true) : DefaultRomFacts (advance s) :=
  defaultRomFacts_early hf.faults (by simp [hu]) hf.inFlight fun _ => ⟨.inl hbusy, hf.inFlight hbusy⟩

theorem facts_tickTaken (hu : s.upc = 1) : DefaultRomFacts (advance (tickClear s)) :=
  defaultRomFacts_early hf.faults (by simp [hu]) hf.inFlight fun _ => hf.sample (by simp [hu]) (by simp [hu])

theorem facts_ticked {v : Voice} (hu : s.upc = 2 + fieldOfVoice v) : DefaultRomFacts (advance (tickVoice v s)) :=
  defaultRomFacts_early hf.faults (by cases v <;> simp [hu, fieldOfVoice]) hf.inFlight
    fun _ => hf.sample (by cases v <;> simp [hu, fieldOfVoice]) (by cases v <;> simp [hu, fieldOfVoice])

theorem facts_portWritten (hu : s.upc = 5) : DefaultRomFacts (advance (portOut s.outacc s)) :=
  defaultRomFacts_elsewhere hf.faults (by rintro (_ | _ | _) <;> simp [hu, mapPlace]) (by simp [hu]) (fun _ => rfl)
    hf.inFlight fun _ _ => hf.sample (by simp [hu]) (by simp [hu])

theorem facts_globalsRead (gp gw : Word) (hu : s.upc = 6) :
    DefaultRomFacts (advance { s with glat := { gp := gp, gw := gw, valid := true } }) :=
  defaultRomFacts_elsewhere hf.faults (by rintro (_ | _ | _) <;> simp [hu, mapPlace]) (fun _ => rfl)
    (fun _ => hf.frame (by simp [hu])) hf.inFlight fun _ _ => hf.sample (by simp [hu]) (by simp [hu])

theorem facts_mapped {v : Voice} (i : Nat) (period vw : Word) (hu : s.upc = mapPlace v) :
    DefaultRomFacts (afterMap i period vw s) := by
  obtain ⟨hlo, hhi, -⟩ := mapPlace_bounds v
  rw [← hu] at hlo hhi
  exact { hf with
    globals := fun _ => hf.globals (by omega)
    mapped0 := fun _ _ => rfl
    mapped1 := fun _ _ => rfl
    mapped2 := fun _ _ => rfl
    frame := fun _ => hf.frame (by omega)
    sample := fun _ _ => hf.sample (by omega) (by omega) }

theorem facts_indexFault (x : Word) (hpolicy : s.cfg.indexPolicy = .fault) : DefaultRomFacts (raiseFault .idx x s) :=
  { hf with faults := .inr ⟨rfl, hpolicy⟩ }

theorem facts_retuned {v : Voice} (hu : s.upc = mapPlace v + 1) : DefaultRomFacts (advance (setVoice v s)) := by
  obtain ⟨hlo, hhi, hsucc⟩ := mapPlace_bounds v
  rw [← hu] at hsucc
  refine defaultRomFacts_elsewhere hf.faults (fun w h => ?_) (fun _ => hf.globals (by omega))
    (fun _ => hf.frame (by omega)) hf.inFlight fun _ _ => hf.sample (by omega) (by omega)
  have hw : s.upc = mapPlace w := by simpa using h
  exact mapPlace_add_one_ne v w (hu.symm.trans hw)

/-- A completed conversion is no longer in flight, so the next channel has none yet. -/
theorem facts_stored (x : Word) (c : Nibble) (hu : s.upc = 13) (hidle : s.adc.busy = false) :
    DefaultRomFacts (advance { writeSlot s s.ch.toNat x with ch := c }) :=
  defaultRomFacts_elsewhere hf.faults (by rintro (_ | _ | _) <;> simp [hu, mapPlace])
    (fun _ => hf.globals (by simp [hu])) (fun _ => hf.frame (by simp [hu])) (by simp [hidle]) (by simp [hu])

theorem facts_counted (hu : s.upc = 14) : DefaultRomFacts (advance { s with tc := s.tc + 1 }) :=
  defaultRomFacts_elsewhere hf.faults (by rintro (_ | _ | _) <;> simp [hu, mapPlace])
    (fun _ => hf.globals (by simp [hu])) (fun _ => hf.frame (by simp [hu])) hf.inFlight (by simp [hu])

theorem facts_looped : DefaultRomFacts { s with upc := 0 } :=
  defaultRomFacts_early hf.faults (by simp) hf.inFlight (by simp)

/-- An instruction of the default micro-program, at its place, keeps the facts; neither `LATCH` fault is among its
paths. -/
theorem exec_keeps_facts {i : Instr} {t : State} (hadc : ¬ (s.adc.busy = true ∧ s.adc.done = true))
    (hst : standsAt i s.upc = true) (h : exec i s = .next t) : DefaultRomFacts t := by
  cases execPath_of_exec h with
  | skipped hg => exact facts_skipped hf hst hg
  | startRefused _ hbusy => exact facts_startRefused hf (standsAt_place hst) hbusy
  | started => exact facts_started hf (standsAt_place hst)
  | tickTaken => exact facts_tickTaken hf (standsAt_place hst)
  | tickAwaited _ => exact hf
  | ticked => exact facts_ticked hf (standsAt_place hst)
  | portWritten => exact facts_portWritten hf (standsAt_place hst)
  | globalsRead gp gw => exact facts_globalsRead hf gp gw (standsAt_place hst)
  | mapped j period vw _ _ => exact facts_mapped hf j period vw (standsAt_place hst)
  | mapIndexFault _ _ _ hpolicy => exact facts_indexFault hf _ hpolicy
  | @mapLatchFault v _ _ hinvalid =>
    obtain ⟨hlo, -, -⟩ := mapPlace_bounds v
    have hlate : 6 < s.upc.toNat := by rw [standsAt_place hst]; exact hlo
    exact absurd (hf.globals hlate) (by simp [hinvalid])
  | retuned => exact facts_retuned hf (standsAt_place hst)
  | @setLatchFault v g ph hg hinvalid =>
    obtain ⟨rfl, rfl⟩ : g = true ∧ ph = mapPhase v := standsAt_guard hst rfl
    have hphase : mapPhase v = phase s := by simpa [guardPasses_on] using hg
    exact absurd (mapout_valid_of_facts hf (standsAt_place hst) hphase.symm) (by simp [hinvalid])
  | stored hdone =>
    have hidle : s.adc.busy = false := by simpa [hdone] using hadc
    exact facts_stored hf _ _ (standsAt_place hst) hidle
  | sampleAwaited _ => exact hf
  | counted => exact facts_counted hf (standsAt_place hst)
  | looped => exact facts_looped hf

theorem blockStep_keeps_facts {t : State} (hrom : s.rom = Config.defaultRom)
    (hadc : ¬ (s.adc.busy = true ∧ s.adc.done = true)) (h : blockStep s = .next t) : DefaultRomFacts t := by
  obtain ⟨-, rfl⟩ | ⟨-, e, he, -⟩ | ⟨-, i, hi, h⟩ := blockStep_cases h
  · exact hf
  · obtain ⟨i, hi, -⟩ := defaultRom_standsAt s.upc.toFin
    rw [fetch_defaultRom hrom s.upc.isLt rfl] at he
    cases he.symm.trans hi
  · exact exec_keeps_facts hf hadc (standsAt_of_decode hrom hi) h

theorem facts_consumeMove : DefaultRomFacts (consumeMove s) := { hf with }

theorem facts_releaseReset : DefaultRomFacts (releaseReset s) := { hf with }

/-- The ADC's completion keeps the channel of its conversion (42_sampler.md R142). -/
theorem facts_agentsMove (e : EnvMove) : DefaultRomFacts (agentsMove e s) where
  faults := by simpa using hf.faults
  globals := by simpa using hf.globals
  mapped0 := by simpa [phase] using hf.mapped0
  mapped1 := by simpa [phase] using hf.mapped1
  mapped2 := by simpa [phase] using hf.mapped2
  frame := by simpa using hf.frame
  inFlight := by
    obtain he | ⟨r, -, he⟩ := agentsMove_adc_cases e s <;> rw [he]
    · simpa using hf.inFlight
    · simp
  sample := by
    obtain he | ⟨r, hbusy, he⟩ := agentsMove_adc_cases e s <;> rw [he]
    · simpa using hf.sample
    · simpa using fun _ _ => hf.inFlight hbusy

end

/-! ### A step, and a run from reset -/

theorem step_keeps_romInv {s t : State} (hi : Inv s) (hf : RomInv s) (h : step s = .next t) : RomInv t := by
  intro hrom
  obtain ⟨-, h⟩ | ⟨hr, u, hu, rfl⟩ := step_cases h
  · obtain ⟨-, rfl⟩ | ⟨_, _, -, rfl⟩ | ⟨-, -, rfl⟩ := heldStep_cases h
    · exact facts_consumeMove (hf hrom)
    · exact defaultRomFacts_atReset _ _ _ _
    · exact facts_agentsMove (facts_releaseReset (facts_consumeMove (hf (by simpa using hrom)))) _
  · obtain ⟨hur, -⟩ := blockStep_keeps_environment hu
    obtain ⟨-, he⟩ | ⟨-, he⟩ := environment_cases u <;> rw [he] at hrom ⊢
    · exact defaultRomFacts_atReset _ _ _ _
    · have hs : s.rom = Config.defaultRom := by simpa [hur] using hrom
      exact facts_agentsMove (facts_consumeMove (blockStep_keeps_facts (hf hs) hs hi.adc hu)) _

/-- Along any run from a state with the invariant both kinds of facts hold, unless the run is refused. -/
theorem run_keeps_inv (k : Nat) : ∀ s : State, Inv s → RomInv s →
    (∃ t, core.run k s = .next t ∧ Inv t ∧ RomInv t) ∨ core.run k s = .refused .illegalConfiguration := by
  induction k with
  | zero => exact fun s hi hf => .inl ⟨s, run_zero s, hi, hf⟩
  | succ k ih =>
    intro s hi hf
    obtain ⟨t, ht⟩ | ⟨hrefused, -⟩ := step_total hi
    · rw [run_succ_next ht]
      exact ih t (step_keeps_inv hi ht) (step_keeps_romInv hi hf ht)
    · exact .inr (run_succ_refused hrefused)

end Sys2Proof.Machine

namespace Sys2Proof.Proofs

open Sys2Proof.Machine Sys2Proof.Safety

/-- Settles O39, by induction on the number of steps from a state with the invariant, of which reset is one. -/
theorem everyRunFromResetKeepsTheInvariant : Obligations.EveryRunFromResetKeepsTheInvariant := by
  intro k
  obtain ⟨hi, hf⟩ := invariantHoldsAtReset
  exact run_keeps_inv k State.reset hi hf

end Sys2Proof.Proofs
end

section
/-! Every step keeps the invariant, as the statement asks it: from any state that has it, whatever the environment's
move. -/

namespace Sys2Proof.Proofs

open Sys2Proof.Machine Sys2Proof.Safety

/-- Settles O36. While reset is held, the step is a move of the environment, which keeps a held reset, makes a new one or
releases it (70_reset_and_hazards.md R230, R231); out of reset, it is the block's attempt, each path of which keeps the
invariant, and then the agents' moves or a reset. -/
theorem everyStepKeepsTheInvariant : Obligations.EveryStepKeepsTheInvariant :=
  fun _ _ hi h => step_keeps_inv hi h

end Sys2Proof.Proofs
end

section
/-! The decoder and the encoder as inverses of each other, and the words that are legal (30_encoding.md R70 to R77): a
word decodes exactly when it is the word of a well-formed instruction, because both speak of the same four fields. -/

namespace Sys2Proof

/-! ### The fields of an instruction -/

/-- OP of an instruction (30_encoding.md R72). -/
def opcode : Instr → Nibble
  | .smpBegin _ _ => 0x1
  | .tickWait _ _ => 0x2
  | .oscTick _ _ _ => 0x3
  | .portWrite _ _ => 0x4
  | .globalRead _ _ => 0x5
  | .map _ _ _ => 0x6
  | .oscSet _ _ _ => 0x7
  | .smpComplete _ _ => 0x8
  | .cntInc _ _ => 0x9
  | .loop _ _ => 0xA

/-- A of an instruction: the voice of the operations that take one, else 0 (30_encoding.md R72). -/
def operand : Instr → Nibble
  | .oscTick v _ _ => fieldOfVoice v
  | .map v _ _ => fieldOfVoice v
  | .oscSet v _ _ => fieldOfVoice v
  | _ => 0

/-- The instruction has these four fields. -/
def HasFields (i : Instr) (op a : Nibble) (g : Bool) (ph : Nibble) : Prop :=
  opcode i = op ∧ operand i = a ∧ i.guardOn = g ∧ i.guardPhase = ph

theorem encode_eq_encodeFields (i : Instr) :
    encode i = encodeFields (opcode i) (operand i) i.guardOn i.guardPhase := by
  cases i <;> rfl

theorem wellFormed_eq_guardWellFormed (i : Instr) : i.wellFormed = guardWellFormed i.guardOn i.guardPhase := by
  cases i <;> rfl

/-- A word with Z = 0 is made of its other four fields (30_encoding.md R70). -/
theorem encodeFields_of_fields {w : Word} (hz : fieldZ w = 0) :
    encodeFields (fieldOp w) (fieldA w) (fieldG w) (fieldPh w) = w := by
  have hzn : w.toNat / 16 % 8 = 0 := by simp [← fieldZ_toNat, hz]
  apply BitVec.eq_of_toNat_eq
  rw [encodeFields_toNat, fieldOp_toNat, fieldA_toNat, fieldG_toNat, fieldPh_toNat]
  omega

theorem guardWellFormed_iff (g : Bool) (ph : Nibble) : guardWellFormed g ph = true ↔ (g = false → ph = 0) := by
  cases g <;> simp [guardWellFormed]

/-! ### What the decoder accepts -/

theorem withVoice_eq_ok_iff {a : Nibble} {mk : Voice → Instr} {i : Instr} :
    withVoice a mk = .ok i ↔ ∃ v, a = fieldOfVoice v ∧ mk v = i := by
  constructor
  · intro h
    cases hv : voiceOfField a with
    | none => simp [withVoice, hv] at h
    | some v => exact ⟨v, voiceOfField_eq_some hv, by simpa [withVoice, hv] using h⟩
  · rintro ⟨v, rfl, rfl⟩
    simp [withVoice]

theorem withoutOperand_eq_ok_iff {a : Nibble} {i j : Instr} : withoutOperand a j = .ok i ↔ a = 0 ∧ j = i := by
  unfold withoutOperand
  split
  · next ha => simp only [ha, Except.ok.injEq, true_and]
  · next ha => simp only [ha, false_and, reduceCtorEq]

theorem hasFields_of_withVoice {op a ph : Nibble} {g : Bool} {mk : Voice → Instr} {i : Instr}
    (h : withVoice a mk = .ok i) (hmk : ∀ v, HasFields (mk v) op (fieldOfVoice v) g ph) : HasFields i op a g ph := by
  obtain ⟨v, rfl, rfl⟩ := withVoice_eq_ok_iff.mp h
  exact hmk v

theorem hasFields_of_withoutOperand {op a ph : Nibble} {g : Bool} {i j : Instr}
    (h : withoutOperand a j = .ok i) (hj : HasFields j op 0 g ph) : HasFields i op a g ph := by
  obtain ⟨rfl, rfl⟩ := withoutOperand_eq_ok_iff.mp h
  exact hj

theorem decodeOperation_fields (i : Instr) :
    decodeOperation (opcode i) (operand i) i.guardOn i.guardPhase = .ok i := by
  cases i with
  | oscTick v g ph => exact withVoice_eq_ok_iff.mpr ⟨v, rfl, rfl⟩
  | map v g ph => exact withVoice_eq_ok_iff.mpr ⟨v, rfl, rfl⟩
  | oscSet v g ph => exact withVoice_eq_ok_iff.mpr ⟨v, rfl, rfl⟩
  | _ => rfl

/-- The operation decoder answers the one instruction with the fields it was given (30_encoding.md R72). -/
theorem decodeOperation_eq_ok_iff {op a ph : Nibble} {g : Bool} {i : Instr} :
    decodeOperation op a g ph = .ok i ↔ HasFields i op a g ph := by
  constructor
  · intro h
    unfold decodeOperation at h
    split_ifs at h with h1 h2 h3 h4 h5 h6 h7 h8 h9 hA
    · exact hasFields_of_withoutOperand h ⟨h1.symm, rfl, rfl, rfl⟩
    · exact hasFields_of_withoutOperand h ⟨h2.symm, rfl, rfl, rfl⟩
    · exact hasFields_of_withVoice h fun _ => ⟨h3.symm, rfl, rfl, rfl⟩
    · exact hasFields_of_withoutOperand h ⟨h4.symm, rfl, rfl, rfl⟩
    · exact hasFields_of_withoutOperand h ⟨h5.symm, rfl, rfl, rfl⟩
    · exact hasFields_of_withVoice h fun _ => ⟨h6.symm, rfl, rfl, rfl⟩
    · exact hasFields_of_withVoice h fun _ => ⟨h7.symm, rfl, rfl, rfl⟩
    · exact hasFields_of_withoutOperand h ⟨h8.symm, rfl, rfl, rfl⟩
    · exact hasFields_of_withoutOperand h ⟨h9.symm, rfl, rfl, rfl⟩
    · exact hasFields_of_withoutOperand h ⟨hA.symm, rfl, rfl, rfl⟩
  · rintro ⟨rfl, rfl, rfl, rfl⟩
    exact decodeOperation_fields i

/-- The checks of `decode` before the operation: Z, and PH under G (30_encoding.md R76). -/
theorem decode_eq_ok_iff_decodeOperation {w : Word} {i : Instr} :
    decode w = .ok i ↔ fieldZ w = 0 ∧ guardWellFormed (fieldG w) (fieldPh w) = true
      ∧ decodeOperation (fieldOp w) (fieldA w) (fieldG w) (fieldPh w) = .ok i := by
  rw [guardWellFormed_iff]
  unfold decode
  split_ifs with hz hg
  · exact ⟨nofun, fun ⟨hz', _⟩ => absurd hz' hz⟩
  · exact ⟨nofun, fun ⟨_, hg', _⟩ => absurd (hg' hg.1) hg.2⟩
  · exact ⟨fun h => ⟨of_not_not hz, fun hoff => by_contra fun hph => hg ⟨hoff, hph⟩, h⟩, fun ⟨_, _, h⟩ => h⟩

/-- A word decodes to the well-formed instruction whose word it is, and to no other (30_encoding.md R70, R79). -/
theorem decode_eq_ok_iff {w : Word} {i : Instr} : decode w = .ok i ↔ i.wellFormed = true ∧ encode i = w := by
  rw [decode_eq_ok_iff_decodeOperation, decodeOperation_eq_ok_iff, wellFormed_eq_guardWellFormed,
    encode_eq_encodeFields]
  constructor
  · rintro ⟨hz, hg, hop, ha, hgo, hph⟩
    rw [hop, ha, hgo, hph]
    exact ⟨hg, encodeFields_of_fields hz⟩
  · rintro ⟨hg, rfl⟩
    simpa [HasFields] using hg

/-! ### The legal words -/

/-- R76's conditions on OP and A, on numbers. -/
def OperandLegal (op a : Nat) : Prop :=
  (1 ≤ op ∧ op ≤ 10) ∧ if op = 3 ∨ op = 6 ∨ op = 7 then a ≤ 2 else a = 0

/-- `OSC_TICK`, `MAP` and `OSC_SET` take the voices 0..2 (30_encoding.md R71). -/
theorem withVoice_accepts_iff {a : Nibble} {mk : Voice → Instr} : (∃ i, withVoice a mk = .ok i) ↔ a.toNat ≤ 2 := by
  constructor
  · rintro ⟨i, h⟩
    obtain ⟨v, rfl, -⟩ := withVoice_eq_ok_iff.mp h
    cases v <;> decide
  · intro ha
    obtain rfl | rfl | rfl : a = 0 ∨ a = 1 ∨ a = 2 := by revert a; decide
    · exact ⟨mk .v0, rfl⟩
    · exact ⟨mk .v1, rfl⟩
    · exact ⟨mk .v2, rfl⟩

theorem withoutOperand_accepts_iff {a : Nibble} {j : Instr} : (∃ i, withoutOperand a j = .ok i) ↔ a.toNat = 0 := by
  simp [withoutOperand_eq_ok_iff, ← BitVec.toNat_inj]

theorem withVoice_accepts_iff_operandLegal {op a : Nibble} {mk : Voice → Instr} (hop : op = 3 ∨ op = 6 ∨ op = 7) :
    (∃ i, withVoice a mk = .ok i) ↔ OperandLegal op.toNat a.toNat := by
  rw [withVoice_accepts_iff]
  obtain rfl | rfl | rfl := hop <;> simp [OperandLegal]

theorem withoutOperand_accepts_iff_operandLegal {op a : Nibble} {j : Instr} (hop : op ∈ [1, 2, 4, 5, 8, 9, 10]) :
    (∃ i, withoutOperand a j = .ok i) ↔ OperandLegal op.toNat a.toNat := by
  rw [withoutOperand_accepts_iff]
  fin_cases hop <;> simp [OperandLegal]

/-- The operation decoder accepts exactly the OP and A that R76 allows. -/
theorem decodeOperation_accepts_iff {op a ph : Nibble} {g : Bool} :
    (∃ i, decodeOperation op a g ph = .ok i) ↔ OperandLegal op.toNat a.toNat := by
  unfold decodeOperation
  split_ifs with h1 h2 h3 h4 h5 h6 h7 h8 h9 hA
  · exact withoutOperand_accepts_iff_operandLegal (by simp [h1])
  · exact withoutOperand_accepts_iff_operandLegal (by simp [h2])
  · exact withVoice_accepts_iff_operandLegal (.inl h3)
  · exact withoutOperand_accepts_iff_operandLegal (by simp [h4])
  · exact withoutOperand_accepts_iff_operandLegal (by simp [h5])
  · exact withVoice_accepts_iff_operandLegal (.inr (.inl h6))
  · exact withVoice_accepts_iff_operandLegal (.inr (.inr h7))
  · exact withoutOperand_accepts_iff_operandLegal (by simp [h8])
  · exact withoutOperand_accepts_iff_operandLegal (by simp [h9])
  · exact withoutOperand_accepts_iff_operandLegal (by simp [hA])
  · refine ⟨nofun, fun ⟨⟨hlo, hhi⟩, _⟩ => ?_⟩
    bv_omega

/-- The words that decode, by their fields (30_encoding.md R76). -/
theorem decode_accepts_iff {w : Word} :
    (∃ i, decode w = .ok i) ↔ fieldZ w = 0 ∧ guardWellFormed (fieldG w) (fieldPh w) = true
      ∧ OperandLegal (fieldOp w).toNat (fieldA w).toNat := by
  simp only [decode_eq_ok_iff_decodeOperation, exists_and_left, decodeOperation_accepts_iff]

/-! ### The count of the legal words -/

/-- The operation-operand pairs of R77: 7 operations without an operand, 3 with each of the 3 voices. -/
def operandPairs : List (Nibble × Nibble) :=
  ([1, 2, 4, 5, 8, 9, 10] ×ˢ [0]) ++ ([3, 6, 7] ×ˢ [0, 1, 2])

/-- The guard forms of R77: unguarded, or guarded at one of the 16 phases. -/
def guardForms : List (Bool × Nibble) := (false, 0) :: (List.finRange 16).map fun k => (true, BitVec.ofFin k)

/-- The word of an operation-operand pair with a guard form. -/
def wordOf (x : (Nibble × Nibble) × (Bool × Nibble)) : Word := encodeFields x.1.1 x.1.2 x.2.1 x.2.2

/-- The legal words: every operation-operand pair with every guard form. -/
def legalWords : List Word := (operandPairs ×ˢ guardForms).map wordOf

theorem mem_operandPairs_iff : ∀ op a : Nibble, (op, a) ∈ operandPairs ↔ OperandLegal op.toNat a.toNat := by
  unfold OperandLegal
  decide

theorem mem_guardForms_iff : ∀ (g : Bool) (ph : Nibble), (g, ph) ∈ guardForms ↔ guardWellFormed g ph = true := by
  decide

theorem wordOf_injective : Function.Injective wordOf := by
  rintro ⟨⟨op, a⟩, g, ph⟩ ⟨⟨op', a'⟩, g', ph'⟩ h
  have hop := congrArg fieldOp h
  have ha := congrArg fieldA h
  have hg := congrArg fieldG h
  have hph := congrArg fieldPh h
  simp only [wordOf, fieldOp_encodeFields, fieldA_encodeFields, fieldG_encodeFields, fieldPh_encodeFields]
    at hop ha hg hph
  rw [hop, ha, hg, hph]

theorem legalWords_nodup : legalWords.Nodup := by
  have hpairs : operandPairs.Nodup := by decide
  have hguards : guardForms.Nodup := by decide
  exact (hpairs.product hguards).map wordOf_injective

theorem legalWords_length : legalWords.length = 272 := by
  have hpairs : operandPairs.length = 16 := rfl
  have hguards : guardForms.length = 17 := rfl
  rw [legalWords, List.length_map, List.length_product, hpairs, hguards]

theorem mem_legalWords_iff {w : Word} : w ∈ legalWords ↔ ∃ i, decode w = .ok i := by
  rw [decode_accepts_iff, ← mem_operandPairs_iff, ← mem_guardForms_iff]
  constructor
  · intro h
    obtain ⟨⟨⟨op, a⟩, g, ph⟩, hmem, rfl⟩ := List.mem_map.mp h
    obtain ⟨hp, hg⟩ := List.mem_product.mp hmem
    simpa [wordOf] using ⟨hg, hp⟩
  · rintro ⟨hz, hg, hp⟩
    exact List.mem_map.mpr ⟨((fieldOp w, fieldA w), (fieldG w, fieldPh w)), List.mem_product.mpr ⟨hp, hg⟩,
      encodeFields_of_fields hz⟩

end Sys2Proof

namespace Sys2Proof.Machine

open Sys2Proof.Safety

/-! ### The guard, and the fetched word -/

theorem guardPasses_iff {g : Bool} {ph : Nibble} {s : State} :
    guardPasses g ph s = true ↔ g = false ∨ ph.toNat = phaseOf s.tc := by
  rw [phaseOf, ← phase_toNat, BitVec.toNat_inj]
  simp [guardPasses]

theorem blockStep_illegal {s : State} {e : DecodeError} (hc : s.fault.cause = .none)
    (he : decode (fetch s) = .error e) : blockStep s = .next (raiseFault .illegal (fetch s) s) := by
  simp [blockStep, hc, he]

/-- A step runs the instruction that the fetched word decodes to (30_encoding.md R73). -/
theorem step_running {s : State} {i : Instr} (hs : Running s) (hi : decode (fetch s) = .ok i) :
    step s = mapNext environment (exec i s) := by
  obtain ⟨hr, hc⟩ := hs
  rw [step_out_of_reset hr, blockStep_running hc hi]

/-- Placing a word releases reset and clears a recorded fault (log 3). -/
theorem running_placeWord (s : State) (w : Word) : Running (placeWord s w) := by
  refine ⟨?_, ?_⟩
  · cases hr : s.rst <;> simp [placeWord, hr]
  · simp only [placeWord]
    generalize (if s.rst = true then releaseReset s else s) = r
    by_cases hc : r.fault.cause = .none <;> simp [hc]

theorem fetch_placeWord (s : State) (w : Word) : fetch (placeWord s w) = w := by
  simp [fetch, placeWord]

end Sys2Proof.Machine

namespace Sys2Proof.Proofs

open Sys2Proof.Machine Sys2Proof.Safety

/-- Settles O4: the word of a well-formed instruction has its fields, and the decoder answers the instruction with
those. -/
theorem decodeOfEncodeIsTheInstruction : Obligations.DecodeOfEncodeIsTheInstruction :=
  fun _ hwf => decode_eq_ok_iff.mpr ⟨hwf, rfl⟩

/-- Settles O2: the fields' conditions, each read as arithmetic on the word. -/
theorem decodeAcceptsExactlyTheLegalWords : Obligations.DecodeAcceptsExactlyTheLegalWords := by
  intro w
  have hz : fieldZ w = 0 ↔ w.toNat / 16 % 8 = 0 := by rw [← fieldZ_toNat, ← BitVec.toNat_inj]; rfl
  have hph : fieldPh w = 0 ↔ w.toNat % 16 = 0 := by rw [← fieldPh_toNat, ← BitVec.toNat_inj]; rfl
  have hg : fieldG w = false ↔ w.toNat / 128 % 2 = 0 := by rw [← fieldG_toNat, Bool.toNat_eq_zero]
  rw [decode_accepts_iff, guardWellFormed_iff, hz, hg, hph, fieldOp_toNat, fieldA_toNat, OperandLegal]
  tauto

/-- Settles O3, with the list of R77: the 16 operation-operand pairs, each with its 17 guard forms. -/
theorem legalWordsAre272 : Obligations.LegalWordsAre272 :=
  ⟨legalWords, legalWords_nodup, legalWords_length, fun _ => mem_legalWords_iff⟩

/-- Settles O5: a word that decodes has Z = 0, so it is made of the fields of the instruction. -/
theorem encodeOfDecodeIsTheWord : Obligations.EncodeOfDecodeIsTheWord :=
  fun _ _ => decode_eq_ok_iff.mp

/-- Settles O9: the guard compares PH with the low four bits of `TC`, and a guarded word that fails it only advances. -/
theorem guardSkipsEveryInstruction : Obligations.GuardSkipsEveryInstruction := by
  intro i s
  refine ⟨guardPasses_iff, fun hskip => ?_⟩
  exact exec_skipped (Bool.eq_false_iff.mpr hskip)

/-- Settles O1: the decoder evaluated on each word. -/
theorem specWordsDecodeAsListed : Obligations.SpecWordsDecodeAsListed :=
  ⟨rfl, rfl, rfl, rfl, rfl, rfl, rfl, rfl, rfl, rfl, rfl, rfl, rfl, rfl, rfl, rfl, rfl⟩

/-- Settles O6: with no fault recorded the block runs the fetched word, and a word that decodes is one of a well-formed
instruction. -/
theorem stepRunsTheDecodedInstruction : Obligations.StepRunsTheDecodedInstruction := by
  intro s i hs hi
  exact ⟨step_running hs hi, (decode_eq_ok_iff.mp hi).1⟩

/-- Settles O7: the placed word is the one fetched, and placing it leaves the block out of reset and not halted. -/
theorem stepRunsThePlacedWord : Obligations.StepRunsThePlacedWord := by
  intro s w i hw hi
  have hplaced : s.withFetchWord 16 w = placeWord s (BitVec.ofNat 16 w) := by
    rw [State.withFetchWord, Nat.mod_eq_of_lt (b := 2 ^ 16) hw]
  rw [hplaced]
  exact step_running (running_placeWord s _) (by rw [fetch_placeWord, hi])

/-- Settles O8: the fault entry comes before the guard is looked at; the default words are those of their places. -/
theorem illegalWordRaisesIllegal : Obligations.IllegalWordRaisesIllegal := by
  refine ⟨fun s e ⟨hr, hc⟩ he => ?_, ⟨.reservedOperation, rfl⟩, fun k => ?_⟩
  · rw [step_out_of_reset hr, blockStep_illegal hc he]
    rfl
  · obtain ⟨i, hi, -⟩ := defaultRom_standsAt k
    exact ⟨i, hi⟩

end Sys2Proof.Proofs
end

section
/-! The word of an instruction as a number (30_encoding.md R70), and what `OSC_TICK` and `OSC_SET` do to the registers
of their voice (40_oscillator.md R100, R110). -/

namespace Sys2Proof.Machine

open Sys2Proof.Safety

/-! ### The word as a number -/

theorem fieldOfVoice_toNat (v : Voice) : (fieldOfVoice v).toNat = voiceNumber v := by
  cases v <;> rfl

/-- The base of an instruction's word is its OP and its A; the guard's bits come on top. -/
theorem encodedAs_of_fields {i : Instr} {base : Nat}
    (hbase : base = (opcode i).toNat * 4096 + (operand i).toNat * 256) : EncodedAs i base := by
  rw [EncodedAs, encode_eq_encodeFields, encodeFields_toNat, hbase]
  cases i.guardOn <;> simp

/-- The bases of a voice operation are 256 apart (30_encoding.md R71). -/
theorem encodedAs_of_voice {i : Instr} {base : Nat} {v : Voice} (hop : base = (opcode i).toNat * 4096)
    (ha : operand i = fieldOfVoice v) : EncodedAs i (base + 256 * voiceNumber v) := by
  apply encodedAs_of_fields
  rw [ha, fieldOfVoice_toNat, hop, Nat.mul_comm 256]

/-! ### One tick of a voice -/

/-- R100 on numbers says what the model's wrap and reload do. -/
theorem oscAfterTick_eq (o : Osc) : oscAfterTick o = { o with c := nextCountdown o } := by
  by_cases h : o.c.toNat = 1
  · simp [oscAfterTick, h, nextCountdown_of_one h]
  · simp only [oscAfterTick, h, if_false, Osc.mk.injEq, true_and]
    apply BitVec.eq_of_toNat_eq
    rw [nextCountdown_of_ne_one h, BitVec.toNat_ofNat]

theorem oscOf_tickVoice (v : Voice) (s : State) : oscOf (tickVoice v s) v = oscAfterTick (oscOf s v) := by
  rw [oscOf_tickVoice_same, oscAfterTick_eq]

theorem level_eq_decide (c w : Word) : level c w = decide (c.toNat < w.toNat) := rfl

/-- The voice's bit is its level, taken after the decrement and the reload (40_oscillator.md R102). -/
theorem tickVoice_outacc_getLsbD (v : Voice) (s : State) (i : Fin 8) :
    (tickVoice v s).outacc.getLsbD i.val =
      if i = voiceBit s v then decide ((oscOf (tickVoice v s) v).c.toNat < (oscOf s v).w.toNat)
      else s.outacc.getLsbD i.val := by
  rw [tickVoice_outacc, setBit_getLsbD, level_eq_decide, oscOf_tickVoice_same]

end Sys2Proof.Machine

namespace Sys2Proof.Proofs

open Sys2Proof.Machine Sys2Proof.Safety

/-- Settles O13: performed, `OSC_TICK v` is `tickVoice v` and then `advance`. -/
theorem oscTickCountsDownAndSetsItsBit : Obligations.OscTickCountsDownAndSetsItsBit := by
  refine ⟨fun v g ph s hperf => ?_, fun v g ph => encodedAs_of_voice (by simp [opcode]) rfl, rfl, rfl, rfl⟩
  exact ⟨advance (tickVoice v s), exec_oscTick hperf, rfl, oscOf_tickVoice v s, fun _ => oscOf_tickVoice_other s,
    tickVoice_outacc_getLsbD v s⟩

/-- Settles O14: performed, `OSC_SET v` looks at the valid flag of `MAPOUT` alone, and is then `setVoice v` and `advance`,
or the entry of the LATCH fault. -/
theorem oscSetAppliesTheMapperResult : Obligations.OscSetAppliesTheMapperResult := by
  refine ⟨fun v g ph s (hperf : guardPasses g ph s = true) => ⟨fun hinvalid => ?_, fun hvalid => ?_⟩,
    fun v g ph => encodedAs_of_voice (by simp [opcode]) rfl, rfl, rfl, rfl⟩
  · rw [exec_oscSet hperf, hinvalid]
    rfl
  · exact ⟨advance (setVoice v s), by rw [exec_oscSet hperf, if_pos hvalid], rfl, oscOf_setVoice_same v s,
      fun _ => oscOf_setVoice_other s⟩

end Sys2Proof.Proofs
end

section
/-! A voice over many ticks (40_oscillator.md R103 to R107, R111 to R113): `n` executions of `OSC_TICK v` iterate
`oscAfterTick` on the voice's registers, and from a countdown of at least 1 that iteration is a run down to 1 and a
reload. -/

namespace Sys2Proof.Machine

open Sys2Proof.Safety

/-! ### A countdown, tick by tick -/

theorem iterate_oscAfterTick_pulse (n : Nat) (o : Osc) : (oscAfterTick^[n] o).w = o.w := by
  induction n generalizing o with
  | zero => rfl
  | succ n ih => exact ih (oscAfterTick o)

/-- Before its end a countdown goes down by 1 with each tick, and no other register moves. -/
theorem iterate_oscAfterTick_run {o : Osc} {k : Nat} (h : k < o.c.toNat) :
    oscAfterTick^[k] o = { o with c := BitVec.ofNat 16 (o.c.toNat - k) } := by
  induction k with
  | zero => simp
  | succ k ih =>
    have hlt := o.c.isLt
    have hc : (BitVec.ofNat 16 (o.c.toNat - k)).toNat = o.c.toNat - k := by
      rw [BitVec.toNat_ofNat]
      omega
    have hne : o.c.toNat - k ≠ 1 := by omega
    rw [Function.iterate_succ_apply', ih (by omega), oscAfterTick]
    simp only [hc, hne, if_false, Osc.mk.injEq, true_and]
    apply BitVec.eq_of_toNat_eq
    rw [BitVec.toNat_ofNat, BitVec.toNat_ofNat]
    omega

theorem iterate_oscAfterTick_run_toNat {o : Osc} {k : Nat} (h : k < o.c.toNat) :
    (oscAfterTick^[k] o).c.toNat = o.c.toNat - k := by
  have hlt := o.c.isLt
  rw [iterate_oscAfterTick_run h, BitVec.toNat_ofNat]
  omega

/-- A countdown of `C ≥ 1` is reloaded with its `C`th tick. -/
theorem iterate_oscAfterTick_reload {o : Osc} (h : 1 ≤ o.c.toNat) :
    oscAfterTick^[o.c.toNat] o = { o with c := o.p } := by
  obtain ⟨k, hk⟩ := Nat.exists_eq_add_of_le' h
  have hlast : o.c.toNat - k = 1 := by omega
  rw [hk, Function.iterate_succ_apply', iterate_oscAfterTick_run (by omega), hlast]
  rfl

/-- After the reload the countdown runs down from the period. -/
theorem iterate_oscAfterTick_reload_add {o : Osc} {k : Nat} (h : 1 ≤ o.c.toNat) (hk : k < o.p.toNat) :
    oscAfterTick^[o.c.toNat + k] o = { o with c := BitVec.ofNat 16 (o.p.toNat - k) } := by
  rw [Nat.add_comm, Function.iterate_add_apply, iterate_oscAfterTick_reload h]
  exact iterate_oscAfterTick_run hk

/-- R106: a countdown within its period is back after `P` ticks. -/
theorem iterate_oscAfterTick_period {o : Osc} (h1 : 1 ≤ o.c.toNat) (hp : o.c.toNat ≤ o.p.toNat) :
    oscAfterTick^[o.p.toNat] o = o := by
  obtain ⟨d, hd⟩ := Nat.exists_eq_add_of_le hp
  have hback : o.p.toNat - d = o.c.toNat := by omega
  conv_lhs => rw [hd]
  rw [iterate_oscAfterTick_reload_add h1 (by omega), hback, BitVec.ofNat_toNat, BitVec.setWidth_eq]

/-- R103: the decrement of countdown 0 wraps, and 0 is not reloaded. -/
theorem oscAfterTick_of_zero {o : Osc} (h : o.c = 0) : oscAfterTick o = { o with c := 65535 } := by
  rw [oscAfterTick, h]
  rfl

/-! ### The machine over many ticks -/

/-- The state after `n` executions of `OSC_TICK v`, with nothing between. -/
def ticked (v : Voice) (n : Nat) (s : State) : State := (fun t => advance (tickVoice v t))^[n] s

theorem ticked_succ (v : Voice) (n : Nat) (s : State) :
    ticked v (n + 1) s = ticked v n (advance (tickVoice v s)) := rfl

theorem ticked_succ_last (v : Voice) (n : Nat) (s : State) :
    ticked v (n + 1) s = advance (tickVoice v (ticked v n s)) := Function.iterate_succ_apply' _ n s

theorem execTimes_oscTick (v : Voice) (n : Nat) (s : State) :
    execTimes (.oscTick v false 0) n s = .next (ticked v n s) := by
  induction n generalizing s with
  | zero => rfl
  | succ n ih => rw [execTimes_succ_next (exec_oscTick (guardPasses_off 0 s)), ih, ticked_succ]

theorem oscOf_ticked (v : Voice) (n : Nat) (s : State) : oscOf (ticked v n s) v = oscAfterTick^[n] (oscOf s v) := by
  induction n generalizing s with
  | zero => rfl
  | succ n ih => rw [ticked_succ, ih, oscOf_advance, oscOf_tickVoice, Function.iterate_succ_apply]

theorem voiceBit_ticked (v : Voice) (n : Nat) (s : State) : voiceBit (ticked v n s) v = voiceBit s v := by
  induction n generalizing s with
  | zero => rfl
  | succ n ih => rw [ticked_succ, ih]; rfl

/-- After each tick the voice's bit compares the new countdown with the pulse width, which no tick changes. -/
theorem outacc_ticked (v : Voice) {n : Nat} (hn : 1 ≤ n) (s : State) :
    (ticked v n s).outacc.getLsbD (voiceBit s v).val =
      decide ((oscAfterTick^[n] (oscOf s v)).c.toNat < (oscOf s v).w.toNat) := by
  obtain ⟨k, rfl⟩ := Nat.exists_eq_add_of_le' hn
  rw [ticked_succ_last, advance_outacc, tickVoice_outacc_getLsbD, voiceBit_ticked, if_pos rfl, oscOf_tickVoice,
    oscOf_ticked, iterate_oscAfterTick_pulse, Function.iterate_succ_apply']

theorem voiceTrace_succ (v : Voice) (n : Nat) (s : State) :
    voiceTrace v (n + 1) s =
      ((oscAfterTick (oscOf s v)).c, decide ((oscAfterTick (oscOf s v)).c.toNat < (oscOf s v).w.toNat))
        :: voiceTrace v n (advance (tickVoice v s)) := by
  rw [voiceTrace, exec_oscTick (guardPasses_off 0 s)]
  simp only [oscOf_advance, advance_outacc, tickVoice_outacc_getLsbD, if_true, oscOf_tickVoice]

/-- What an observer of a voice sees: the countdowns, each with its comparison to the pulse width. -/
theorem voiceTrace_eq (v : Voice) (n : Nat) (s : State) :
    voiceTrace v n s = (List.range n).map fun k =>
      ((oscAfterTick^[k + 1] (oscOf s v)).c,
        decide ((oscAfterTick^[k + 1] (oscOf s v)).c.toNat < (oscOf s v).w.toNat)) := by
  induction n generalizing s with
  | zero => rfl
  | succ n ih =>
    have hpulse : (oscAfterTick (oscOf s v)).w = (oscOf s v).w := iterate_oscAfterTick_pulse 1 _
    rw [voiceTrace_succ, ih, List.range_succ_eq_map, List.map_cons, List.map_map, oscOf_advance,
      oscOf_tickVoice, hpulse]
    rfl

/-! ### A period of ticks (R106, R107) -/

/-- The countdowns of a period: down to 1 before the reload, from the period on after it. -/
theorem voiceTrace_countdowns {v : Voice} {s : State} (h1 : 1 ≤ (oscOf s v).c.toNat)
    (hp : (oscOf s v).c.toNat ≤ (oscOf s v).p.toNat) :
    (voiceTrace v (oscOf s v).p.toNat s).map (fun x => x.1.toNat) =
      countdownCycle (oscOf s v).p.toNat (oscOf s v).c.toNat := by
  rw [voiceTrace_eq, countdownCycle, List.map_map]
  generalize oscOf s v = o at h1 hp ⊢
  have hsplit : o.p.toNat = (o.c.toNat - 1) + (o.p.toNat - o.c.toNat + 1) := by omega
  conv_lhs => rw [hsplit, List.range_add, List.map_append, List.map_map]
  congr 1
  · refine List.map_congr_left fun k hk => ?_
    have hk := List.mem_range.mp hk
    simp only [Function.comp_apply]
    rw [iterate_oscAfterTick_run_toNat (by omega)]
    omega
  · refine List.map_congr_left fun k hk => ?_
    have hk := List.mem_range.mp hk
    have hlt := o.p.isLt
    have hindex : o.c.toNat - 1 + k + 1 = o.c.toNat + k := by omega
    simp only [Function.comp_apply]
    rw [hindex, iterate_oscAfterTick_reload_add h1 (by omega), BitVec.toNat_ofNat]
    omega

/-- Every level of a trace is its countdown's comparison, so counting high ticks is counting countdowns below `W`. -/
theorem voiceTrace_high_length (v : Voice) (n : Nat) (s : State) :
    ((voiceTrace v n s).filter (fun x => x.2)).length =
      ((voiceTrace v n s).map (fun x => x.1.toNat)).countP (· < (oscOf s v).w.toNat) := by
  rw [← List.countP_eq_length_filter, List.countP_map, voiceTrace_eq, List.countP_map, List.countP_map]
  rfl

/-- Of the `n` numbers `a, a - 1, ...`, those below `w`. -/
theorem countP_descending_lt {n a : Nat} (w : Nat) (h : n ≤ a + 1) :
    ((List.range n).map (fun k => a - k)).countP (· < w) = min w (a + 1) - (a + 1 - n) := by
  induction n with
  | zero => simp
  | succ n ih =>
    rw [List.range_succ, List.map_append, List.countP_append, ih (by omega), List.map_singleton, List.countP_singleton]
    by_cases hlt : a - n < w
    · simp only [hlt, decide_true, if_true]
      omega
    · simp only [hlt, decide_false, Bool.false_eq_true, if_false]
      omega

/-- The two halves of a period together are the numbers `1 .. P`. -/
theorem countP_countdownCycle_lt {p c : Nat} (w : Nat) (h1 : 1 ≤ c) (hp : c ≤ p) :
    (countdownCycle p c).countP (· < w) = min w (p + 1) - 1 := by
  rw [countdownCycle, List.countP_append, countP_descending_lt w (by omega), countP_descending_lt w (by omega)]
  omega

end Sys2Proof.Machine

namespace Sys2Proof.Proofs

open Sys2Proof.Machine Sys2Proof.Safety

/-- Settles O40: a countdown of `C` in `1 .. P` is reloaded with tick `C` and back at `C` with tick `P`. -/
theorem countdownIsPeriodic : Obligations.CountdownIsPeriodic := by
  intro v s h1 hp
  refine ⟨voiceTrace_countdowns h1 hp, ticked v (oscOf s v).p.toNat s, execTimes_oscTick _ _ _, ?_⟩
  rw [oscOf_ticked, iterate_oscAfterTick_period h1 hp]

/-- Settles O41: the high ticks of a period are the numbers in `1 .. P` below `W`, wherever in it the period starts. -/
theorem highTicksPerPeriod : Obligations.HighTicksPerPeriod := by
  intro v s h1 hp
  rw [voiceTrace_high_length, voiceTrace_countdowns h1 hp, countP_countdownCycle_lt _ h1 hp]
  split <;> omega

/-- Settles O42: the first tick wraps to 65535, and from there it is a countdown that runs down to its end. -/
theorem countdownFromZeroTakes65536Ticks : Obligations.CountdownFromZeroTakes65536Ticks := by
  intro v s hzero
  have hfirst : oscAfterTick (oscOf s v) = { oscOf s v with c := 65535 } := oscAfterTick_of_zero hzero
  have hwrapped : (oscAfterTick (oscOf s v)).c.toNat = 65535 := by rw [hfirst]; rfl
  refine ⟨fun k hk1 hk => ⟨ticked v k s, execTimes_oscTick _ _ _, ?_, ?_⟩,
    ticked v 65536 s, execTimes_oscTick _ _ _, ?_⟩
  · obtain ⟨j, rfl⟩ := Nat.exists_eq_add_of_le' hk1
    rw [oscOf_ticked, Function.iterate_succ_apply, iterate_oscAfterTick_run_toNat (by omega), hwrapped]
    omega
  · rintro rfl
    have hpulse := (oscOf s v).w.isLt
    rw [outacc_ticked v hk1, Function.iterate_one, hwrapped, decide_eq_false_iff_not]
    omega
  · have hreload := iterate_oscAfterTick_reload (o := oscAfterTick (oscOf s v)) (by omega)
    rw [hwrapped] at hreload
    rw [oscOf_ticked, Function.iterate_succ_apply _ 65535, hreload, hfirst]

/-- Settles O43: `OSC_SET v` leaves the countdown in flight, which runs down to its end under the new pulse width and is
then reloaded from the new period. -/
theorem newPeriodWaitsForTheReload : Obligations.NewPeriodWaitsForTheReload := by
  intro v s t hvalid hexec h1
  obtain rfl : advance (setVoice v s) = t := by
    rw [exec_oscSet (guardPasses_off 0 s), if_pos hvalid] at hexec
    exact Host.Outcome.next.inj hexec
  have hosc : oscOf (advance (setVoice v s)) v = { p := s.mapout.p, w := s.mapout.w, c := (oscOf s v).c } :=
    oscOf_setVoice_same v s
  have hp : s.mapout.p = (oscOf (advance (setVoice v s)) v).p := by rw [hosc]
  have hw : s.mapout.w = (oscOf (advance (setVoice v s)) v).w := by rw [hosc]
  have hc : (oscOf s v).c = (oscOf (advance (setVoice v s)) v).c := by rw [hosc]
  have hbit : voiceBit s v = voiceBit (advance (setVoice v s)) v := rfl
  rw [hc] at h1
  rw [hp, hw, hc, hbit]
  generalize advance (setVoice v s) = t at h1 ⊢
  refine ⟨fun k hk1 hk => ⟨ticked v k t, execTimes_oscTick _ _ _, ?_, ?_⟩,
    ticked v _ t, execTimes_oscTick _ _ _, ?_, ?_⟩
  · rw [oscOf_ticked, iterate_oscAfterTick_run_toNat hk]
  · rw [outacc_ticked v hk1, iterate_oscAfterTick_run_toNat hk]
  · rw [oscOf_ticked, iterate_oscAfterTick_reload h1]
  · rw [outacc_ticked v h1, iterate_oscAfterTick_reload h1]

end Sys2Proof.Proofs
end

section
/-! The mapper's two words (41_mapper.md): what `GLOBAL_READ` and `MAP` answer on each path, and the arithmetic of the
divisor and the pulse width (R123 to R128). -/

namespace Sys2Proof.Machine

open Sys2Proof.Safety

/-! ### `GLOBAL_READ` -/

theorem readGlobals_of_slots {s : State} {gp gw : Word} (hp : readSlot s s.cfg.gslotP = some gp)
    (hw : readSlot s s.cfg.gslotW = some gw) :
    readGlobals s = .next (advance { s with glat := { gp := gp, gw := gw, valid := true } }) := by
  simp only [readGlobals, hp, hw]

/-- `GLOBAL_READ` names the first of its two slots that does not exist (log 10). -/
theorem readGlobals_missing_slot {s : State}
    (h : readSlot s s.cfg.gslotP = none ∨ readSlot s s.cfg.gslotW = none) :
    ∃ i, readGlobals s = .fault (.noSuchSlot i) ∧ s.slots.length ≤ i := by
  cases hp : readSlot s s.cfg.gslotP with
  | none => exact ⟨s.cfg.gslotP, by simp only [readGlobals, hp], readSlot_eq_none hp⟩
  | some gp =>
    have hw : readSlot s s.cfg.gslotW = none := by simpa [hp] using h
    exact ⟨s.cfg.gslotW, by simp only [readGlobals, hp, hw], readSlot_eq_none hw⟩

/-! ### `MAP`: the index check -/

/-- The check passes an index in range, and under `clamp` the last index in place of one out of range (R124). -/
theorem selectIndex_eq_some_iff {policy : IndexPolicy} {len index i : Nat} :
    selectIndex policy len index = some i ↔
      index < len ∧ i = index ∨ len ≤ index ∧ policy = .clamp ∧ i = len - 1 := by
  obtain ⟨hlt, hs⟩ | ⟨hge, rfl, hs⟩ | ⟨hge, rfl, hs⟩ := selectIndex_cases policy len index
  · simp [hs, hlt, eq_comm]
  · simp [hs, hge]
  · simp [hs, hge, eq_comm]

/-- Only an index out of range under `fault` does not pass it (R124). -/
theorem selectIndex_eq_none_iff {policy : IndexPolicy} {len index : Nat} :
    selectIndex policy len index = none ↔ len ≤ index ∧ policy = .fault := by
  obtain ⟨hlt, hs⟩ | ⟨hge, rfl, hs⟩ | ⟨hge, rfl, hs⟩ := selectIndex_cases policy len index
  · simp [hs, hlt]
  · simp [hs, hge]
  · simp [hs]

/-- The index that `MAP` with the period control `vp` reads the table at, if the check passes one. -/
def selectedIndex (s : State) (vp : Word) : Option Nat :=
  selectIndex s.cfg.indexPolicy s.cfg.table.length (mapIndex vp s.glat.gp)

section
variable {v : Voice} {s : State} {vp vw : Word} (hp : readSlot s (voiceSlotP s v) = some vp)
  (hw : readSlot s (voiceSlotW s v) = some vw)
include hp hw

theorem mapVoice_selected {i : Nat} {period : Word} (hsel : selectedIndex s vp = some i)
    (hentry : s.cfg.table[i]? = some period) : mapVoice v s = .next (afterMap i period vw s) := by
  have hsel' : selectIndex s.cfg.indexPolicy (tableLen s) (mapIndex vp s.glat.gp) = some i := hsel
  have hentry' : tableAt s i = some period := hentry
  rw [mapVoice_of_slots hp hw]
  simp only [mapRaw, hsel', mapAt, hentry', afterMap]

theorem mapVoice_out_of_range (hsel : selectedIndex s vp = none) :
    mapVoice v s = .next (raiseFault .idx (BitVec.ofNat 16 (mapIndex vp s.glat.gp)) s) := by
  have hsel' : selectIndex s.cfg.indexPolicy (tableLen s) (mapIndex vp s.glat.gp) = none := hsel
  rw [mapVoice_of_slots hp hw]
  simp only [mapRaw, hsel']

end

/-! ### `MAP`: what it answers -/

section
variable {v : Voice} {g : Bool} {ph : Nibble} {s : State} (hg : guardPasses g ph s = true)
include hg

theorem exec_map_valid (hvalid : s.glat.valid = true) : exec (.map v g ph) s = mapVoice v s := by
  rw [exec_map hg, if_pos hvalid]

theorem exec_map_invalid (hinvalid : s.glat.valid = false) :
    exec (.map v g ph) s = .next (raiseFault .latch (encode (.map v g ph)) s) := by
  rw [exec_map hg, hinvalid]
  rfl

/-- A performed `MAP` that answers a next state records a fault or completes from the entry at the selected index. -/
theorem exec_map_cases {t : State} (h : exec (.map v g ph) s = .next t) :
    (∃ c x, c ≠ .none ∧ t = raiseFault c x s)
      ∨ ∃ vp vw i period, readSlot s (voiceSlotP s v) = some vp ∧ readSlot s (voiceSlotW s v) = some vw
        ∧ selectedIndex s vp = some i ∧ s.cfg.table[i]? = some period ∧ t = afterMap i period vw s := by
  cases hvalid : s.glat.valid with
  | false =>
    rw [exec_map_invalid hg hvalid] at h
    exact .inl ⟨.latch, _, by simp, (Host.Outcome.next.inj h).symm⟩
  | true =>
    rw [exec_map_valid hg hvalid] at h
    obtain ⟨vp, vw, hp, hw, ⟨-, -, rfl⟩ | ⟨i, period, -, hentry, hsel, rfl⟩⟩ := mapVoice_cases h
    · exact .inl ⟨.idx, _, by simp, rfl⟩
    · exact .inr ⟨vp, vw, i, period, hp, hw, selectIndex_eq_some_iff.mpr hsel, hentry, rfl⟩

end

/-- A fault entry on a state without a fault changes `FAULT` (60_exceptions.md R203). -/
theorem raiseFault_fault_ne {c : Cause} (x : Word) {s : State} (hc : c ≠ .none) (hs : s.fault.cause = .none) :
    (raiseFault c x s).fault ≠ s.fault := by
  intro h
  apply hc
  rw [← hs, ← h]
  rfl

/-! ### The divisor and the pulse width -/

theorem mapDivisor_mono {vw gw vw' gw' : Word} (hv : vw.toNat ≤ vw'.toNat) (hg : gw.toNat ≤ gw'.toNat) :
    mapDivisor vw gw ≤ mapDivisor vw' gw' := by
  have hmul : (1 + vw.toNat / 16) * (1 + gw.toNat / 16) ≤ (1 + vw'.toNat / 16) * (1 + gw'.toNat / 16) :=
    Nat.mul_le_mul (by omega) (by omega)
  unfold mapDivisor
  omega

/-- The divisor of controls of at most `16 a + 15` and `16 b + 15`. -/
theorem mapDivisor_le {vw gw : Word} {a b : Nat} (hv : vw.toNat / 16 ≤ a) (hg : gw.toNat / 16 ≤ b) :
    mapDivisor vw gw ≤ 15 + (1 + a) * (1 + b) := by
  have hmul : (1 + vw.toNat / 16) * (1 + gw.toNat / 16) ≤ (1 + a) * (1 + b) := Nat.mul_le_mul (by omega) (by omega)
  unfold mapDivisor
  omega

/-- The divisor looks at the controls in steps of 16 (R128). -/
theorem mapDivisor_of_steps {vw gw vw' gw' : Word} (hv : vw.toNat / 16 = vw'.toNat / 16)
    (hg : gw.toNat / 16 = gw'.toNat / 16) : mapDivisor vw' gw' = mapDivisor vw gw := by
  rw [mapDivisor, mapDivisor, hv, hg]

theorem mapPulse_antitone (period : Word) {vw gw vw' gw' : Word} (h : mapDivisor vw gw ≤ mapDivisor vw' gw') :
    (mapPulse period vw' gw').toNat ≤ (mapPulse period vw gw).toNat := by
  have hpos : 0 < mapDivisor vw gw := Nat.lt_of_lt_of_le (by decide) (sixteen_le_mapDivisor vw gw)
  rw [mapPulse_toNat, mapPulse_toNat]
  exact Nat.div_le_div_left h hpos

end Sys2Proof.Machine

namespace Sys2Proof.Proofs

open Sys2Proof.Machine Sys2Proof.Safety

/-- Settles O15: performed, `GLOBAL_READ` is `readGlobals`, which stops at the first slot that does not exist. -/
theorem globalReadLatchesTheGlobalPair : Obligations.GlobalReadLatchesTheGlobalPair := by
  refine ⟨fun g ph s (hperf : guardPasses g ph s = true) => ?_,
    fun g ph => encodedAs_of_fields (by simp [opcode, operand]), rfl, rfl, rfl⟩
  rw [exec_globalRead hperf]
  exact ⟨fun gp gw hp hw => readGlobals_of_slots hp hw, readGlobals_missing_slot⟩

/-- Settles O16: the LATCH check comes first; past it the check of the index decides between the IDX fault and the table
read, whose results are those of `afterMap`. -/
theorem mapComputesPeriodAndPulseWidth : Obligations.MapComputesPeriodAndPulseWidth := by
  refine ⟨fun v g ph s (hperf : guardPasses g ph s = true) =>
      ⟨exec_map_invalid hperf, fun hvalid vp vw index hp hw hindex => ?_⟩,
    fun v g ph => encodedAs_of_voice (by simp [opcode]) rfl, rfl, rfl, rfl,
    fun v => by cases v <;> exact ⟨rfl, rfl⟩⟩
  obtain rfl : index = mapIndex vp s.glat.gp := hindex
  rw [exec_map_valid hperf hvalid]
  refine ⟨fun hlen hpolicy => ?_, fun i period hsel hentry => ?_⟩
  · exact mapVoice_out_of_range hp hw (selectIndex_eq_none_iff.mpr ⟨hlen, hpolicy⟩)
  · exact ⟨afterMap i period vw s, mapVoice_selected hp hw (selectIndex_eq_some_iff.mpr hsel) hentry, rfl, rfl, rfl,
      mapPulse_toNat period vw s.glat.gw, rfl⟩

/-- Settles O45: completed, both `MAP`s selected their index by the same check of the same sum, so they read the same
entry, and `MAPOUT` is made of that entry and the two pulse-width controls. -/
theorem mapIsAFunctionOfItsInputs : Obligations.MapIsAFunctionOfItsInputs := by
  intro u v g h ph qh s s' t t' hperf hperf' hslotP hslotW hglat htable hpolicy hexec hexec' hfault hfault' hnone hnone'
  obtain ⟨c, x, hc, rfl⟩ | ⟨vp, vw, i, period, hp, hw, hsel, hentry, rfl⟩ := exec_map_cases hperf hexec
  · exact absurd hfault (raiseFault_fault_ne x hc hnone)
  obtain ⟨c, x, hc, rfl⟩ | ⟨vp', vw', i', period', hp', hw', hsel', hentry', rfl⟩ := exec_map_cases hperf' hexec'
  · exact absurd hfault' (raiseFault_fault_ne x hc hnone')
  obtain rfl : vp = vp' := Option.some.inj (by rw [← hp, ← hp', hslotP])
  obtain rfl : vw = vw' := Option.some.inj (by rw [← hw, ← hw', hslotW])
  have hselect : selectedIndex s vp = selectedIndex s' vp := by
    rw [selectedIndex, selectedIndex, hpolicy, htable, hglat]
  obtain rfl : i = i' := Option.some.inj (by rw [← hsel, ← hsel', hselect])
  obtain rfl : period = period' := Option.some.inj (by rw [← hentry, ← hentry', htable])
  rw [afterMap_mapout, afterMap_mapout, hglat]

/-- Settles O46: the divisor does not shrink when a control grows, and it looks at the controls in steps of 16. -/
theorem pulseWidthShrinksWithEitherControl : Obligations.PulseWidthShrinksWithEitherControl := by
  intro period vw gw vw' gw'
  refine ⟨fun hv hg => mapPulse_antitone period (mapDivisor_mono hv hg), fun hv hg => ?_⟩
  rw [mapPulse, mapPulse, mapDivisor_of_steps hv hg]

/-- Settles O47: a `MAP` that moved `upc` entered no fault, so `MAPOUT` holds a pulse width whose divisor was at least
16. -/
theorem pulseWidthIsAtMostHalfThePeriod : Obligations.PulseWidthIsAtMostHalfThePeriod := by
  intro v g ph s t hperf hexec hmoved
  obtain ⟨c, x, -, rfl⟩ | ⟨vp, vw, i, period, -, -, -, -, rfl⟩ := exec_map_cases hperf hexec
  · exact absurd (raiseFault_upc c x s) hmoved
  · have htwice := two_mul_mapPulse_le period vw s.glat.gw
    have hhalf : (mapPulse period vw s.glat.gw).toNat ≤ period.toNat / 2 := by omega
    exact ⟨rfl, hhalf⟩

/-- Settles O48: each bound is that of the intermediate at its largest controls. -/
theorem mapperIntermediatesAreBounded : Obligations.MapperIntermediatesAreBounded := by
  intro period vp vw gp gw
  have hv := vw.isLt
  have hg := gw.isLt
  refine ⟨mapIndex_eq_zero_iff vp gp, mapIndex_le vp gp, sixteen_le_mapDivisor vw gw, ?_, mapPulse_toNat period vw gw,
    fun hvp hgp => ?_, fun hvw hgw => ?_, fun hperiod => ?_⟩
  · exact mapDivisor_le (a := 4095) (b := 4095) (by omega) (by omega)
  · unfold mapIndex
    omega
  · exact mapDivisor_le (a := 63) (b := 63) (by omega) (by omega)
  · omega

end Sys2Proof.Proofs
end

section
/-! A tick of the default micro-program (43_scheduler.md R160 to R165) word by word. Between two attempts the agents
write the ADC, the timer and the moves to come, which most words do not look at: the attempts at those words are chained
on the rest of the state alone. -/

namespace Sys2Proof.Machine

open Sys2Proof.Safety

/-! ### The agents' part of the state -/

/-- `s` with the ADC, the timer and the environment's fields of `a`. -/
def withAgents (a s : State) : State :=
  { s with adc := a.adc, tmr := a.tmr, inputs := a.inputs, moment := a.moment }

/-- The move after an attempt writes the agents' part alone, whatever the rest is. -/
theorem agentsMove_withAgents (e : EnvMove) (a s : State) :
    agentsMove e (consumeMove (withAgents a s)) = withAgents (agentsMove e (consumeMove a)) s := by
  obtain ⟨host, elapses, reading⟩ := e
  cases reading with
  | none => cases h : elapses && a.tmr.running <;> simp [agentsMove, timerMove, consumeMove, withAgents, h]
  | some r =>
    cases h : elapses && a.tmr.running <;> cases hb : a.adc.busy <;>
      simp [agentsMove, timerMove, adcMove, consumeMove, withAgents, h, hb]

/-! ### Attempts that do not depend on the agents, and runs of them -/

/-- `n` attempts of the block in a row take `s` to `w`, whatever the agents do before each, and leave the agents' part
alone. -/
inductive Attempts : Nat → State → State → Prop
  | none {s : State} : Attempts 0 s s
  | cons {n : Nat} {s u w : State} (hattempt : ∀ a, blockStep (withAgents a s) = .next (withAgents a u))
      (hrest : Attempts n u w) : Attempts (n + 1) s w

theorem Attempts.trans {m n : Nat} {s u w : State} (h : Attempts m s u) (h' : Attempts n u w) :
    Attempts (m + n) s w := by
  induction h with
  | none => rwa [Nat.zero_add]
  | cons hattempt _ ih => rw [Nat.add_right_comm]; exact .cons hattempt (ih h')

/-- A halted block stays as it is (60_exceptions.md R204). -/
theorem attempts_halted (n : Nat) {s : State} (h : s.fault.cause ≠ .none) : Attempts n s s := by
  induction n with
  | zero => exact .none
  | succ n ih => exact .cons (fun _ => blockStep_halted h) ih

/-- An attempt and a settled move that applies no reset. -/
theorem step_withAgents {a b s u : State} {e : EnvMove} {rest : List EnvMove} (hr : s.rst = false)
    (hb : blockStep (withAgents a s) = .next (withAgents b u)) (hin : a.inputs = e :: rest) (hn : e.host ≠ .reset) :
    step (withAgents a s) = .next (withAgents (agentsMove e (consumeMove b)) u) := by
  rw [step_with_input (s := withAgents a s) hr hb hin hn, agentsMove_withAgents]

theorem run_of_attempts {n : Nat} {s w : State} (h : Attempts n s w) :
    ∀ {a : State} {es rest : List EnvMove}, s.rst = false → a.inputs = es ++ rest → es.length = n → NoReset es →
      ∃ b, core.run n (withAgents a s) = .next (withAgents b w) ∧ b.inputs = rest := by
  induction h with
  | none =>
    intro a es rest _ hin hlen _
    obtain rfl := List.eq_nil_of_length_eq_zero hlen
    exact ⟨a, run_zero _, hin⟩
  | @cons n s u w hattempt _ ih =>
    intro a es rest hr hin hlen hn
    obtain ⟨e, es, rfl⟩ := List.exists_cons_of_length_eq_add_one hlen
    obtain ⟨he, hes⟩ := List.forall_mem_cons.mp hn
    have hru : u.rst = false := by
      obtain ⟨-, -, hrst, -⟩ := blockStep_keeps_environment (hattempt a)
      exact hrst.trans hr
    rw [run_succ_next (step_withAgents hr (hattempt a) hin he)]
    exact ih hru (by rw [agentsMove_inputs, consumeMove_inputs, hin]; rfl) (Nat.succ.inj hlen) hes

/-! ### Attempts at the words of the default micro-program -/

/-- The block is to attempt the word at place `k` of the default micro-program. -/
structure AtWord (k : Nibble) (s : State) : Prop where
  noFault : s.fault.cause = .none
  rom : s.rom = Config.defaultRom
  place : s.upc = k

section
variable {k : Nibble} {i : Instr} {s : State} (hat : AtWord k s)
  (hword : decode (Config.defaultRom[k.toNat]'k.isLt) = .ok i)
include hat

theorem AtWord.next {k' : Nibble} {u : State} (hk : k + 1 = k') (hfault : u.fault = s.fault) (hrom : u.rom = s.rom)
    (hupc : u.upc = s.upc + 1) : AtWord k' u :=
  ⟨by rw [hfault, hat.noFault], by rw [hrom, hat.rom], by rw [hupc, hat.place, hk]⟩

/-- Which word is to be attempted is no matter of the agents. -/
theorem AtWord.withAgents (a : State) : AtWord k (withAgents a s) := ⟨hat.noFault, hat.rom, hat.place⟩

include hword

theorem blockStep_atWord : blockStep s = exec i s := by
  refine blockStep_running hat.noFault ?_
  rw [fetch_defaultRom hat.rom k.isLt (by rw [hat.place]), hword]

theorem attempts_word {n : Nat} {u w : State} (hexec : ∀ a, exec i (withAgents a s) = .next (withAgents a u))
    (hrest : Attempts n u w) : Attempts (n + 1) s w :=
  .cons (fun a => (blockStep_atWord (hat.withAgents a) hword).trans (hexec a)) hrest

end

/-- A guarded word is skipped at another phase than its own (30_encoding.md R74). -/
theorem exec_skipped_at {i : Instr} {s : State} (hg : i.guardOn = true) (hph : phase s ≠ i.guardPhase) :
    exec i s = .next (advance s) := by
  refine exec_skipped ?_
  rw [hg, guardPasses_on, beq_eq_false_iff_ne]
  exact Ne.symm hph

theorem decode_map_word (v : Voice) :
    decode (Config.defaultRom[(mapPlace v).toNat]'(mapPlace v).isLt) = .ok (.map v true (mapPhase v)) := by
  cases v <;> rfl

theorem decode_oscSet_word (v : Voice) :
    decode (Config.defaultRom[(mapPlace v + 1).toNat]'(mapPlace v + 1).isLt) = .ok (.oscSet v true (mapPhase v)) := by
  cases v <;> rfl

/-! ### The words before the voices' ticks: `SMP_BEGIN` and `TICK_WAIT` -/

theorem beginSample_tmr (s : State) : (beginSample s).tmr = s.tmr := by
  obtain ⟨-, -, h⟩ | ⟨-, h⟩ := beginSample_cases s
  · rw [h]
  · rw [h]; rfl

theorem beginSample_inputs (s : State) : (beginSample s).inputs = s.inputs := by
  obtain ⟨-, -, h⟩ | ⟨-, h⟩ := beginSample_cases s
  · rw [h]
  · rw [h]; rfl

theorem portWrites_beginSample (s : State) : portWrites (beginSample s).events = portWrites s.events := by
  obtain ⟨-, -, h⟩ | ⟨-, h⟩ := beginSample_cases s
  · rw [h]
  · rw [h]; rfl

/-- `SMP_BEGIN` writes the ADC and the list of transactions alone (42_sampler.md R141). -/
theorem beginSample_eq_withAgents (s : State) :
    beginSample s = withAgents (beginSample s) { s with events := (beginSample s).events } := by
  obtain ⟨-, -, h⟩ | ⟨-, h⟩ := beginSample_cases s <;> rw [h] <;> rfl

/-- The state after `SMP_BEGIN`, but for the agents' part. -/
def tickBegun (s : State) : State := advance { s with events := (beginSample s).events }

/-- The state after `SMP_BEGIN` and `TICK_WAIT`, but for the agents' part. -/
def tickOpened (s : State) : State := advance { tickBegun s with events := .tmrClear :: (tickBegun s).events }

/-- The agents' part after `SMP_BEGIN`, the move `e`, `TICK_WAIT` and the move `f`. -/
def openingAgents (e f : EnvMove) (s : State) : State :=
  agentsMove f (consumeMove (tickClear (agentsMove e (consumeMove (beginSample s)))))

theorem atWord_tickOpened {s : State} (hat : AtWord 0 s) : AtWord 2 (tickOpened s) := by
  have hat1 : AtWord 1 (tickBegun s) := hat.next rfl rfl rfl rfl
  exact hat1.next rfl rfl rfl rfl

theorem portWrites_tickOpened (s : State) : portWrites (tickOpened s).events = portWrites s.events :=
  portWrites_beginSample s

theorem blockStep_smpBegin_word {s : State} (hat : AtWord 0 s) :
    blockStep s = .next (withAgents (beginSample s) (tickBegun s)) := by
  rw [blockStep_atWord (i := .smpBegin false 0) hat rfl, exec_smpBegin (guardPasses_off 0 s), beginSample_eq_withAgents]
  rfl

theorem blockStep_tickWait_word {a s : State} (hat : AtWord 1 s) (hflag : a.tmr.elapsed = true) :
    blockStep (withAgents a s) =
      .next (withAgents (tickClear a) (advance { s with events := .tmrClear :: s.events })) := by
  have hflag' : (withAgents a s).tmr.elapsed = true := hflag
  rw [blockStep_atWord (i := .tickWait false 0) (hat.withAgents a) rfl, exec_tickWait (guardPasses_off 0 _),
    if_pos hflag']
  rfl

/-- The first two words of a tick at which the timer elapses in time (43_scheduler.md R163, R166). -/
theorem run_opening {s : State} {e f : EnvMove} {rest : List EnvMove} (hr : s.rst = false) (hat : AtWord 0 s)
    (htimer : s.tmr.running = true) (hin : s.inputs = e :: f :: rest) (hn : NoReset [e, f])
    (helapses : e.timerElapses = true) :
    core.run 2 s = .next (withAgents (openingAgents e f s) (tickOpened s))
      ∧ (openingAgents e f s).inputs = rest := by
  have hflag : (agentsMove e (consumeMove (beginSample s))).tmr.elapsed = true := by
    simp [beginSample_tmr, htimer, helapses]
  have hin' : (agentsMove e (consumeMove (beginSample s))).inputs = f :: rest := by
    simp [beginSample_inputs, hin]
  have hbegin := step_withAgents (a := s) (s := s) hr (blockStep_smpBegin_word hat) hin (hn e (by simp))
  have hat' : AtWord 1 (tickBegun s) := hat.next rfl rfl rfl rfl
  have hwait := step_withAgents (s := tickBegun s) hr (blockStep_tickWait_word hat' hflag) hin' (hn f (by simp))
  refine ⟨?_, by simp [openingAgents, beginSample_inputs, hin]⟩
  exact (run_succ_next hbegin).trans ((run_succ_next hwait).trans (run_zero _))

/-! ### The voices' ticks, `PORT_WRITE` and `GLOBAL_READ` -/

/-- The state after the three `OSC_TICK`s. -/
def voicesTicked (s : State) : State :=
  advance (tickVoice .v2 (advance (tickVoice .v1 (advance (tickVoice .v0 s)))))

theorem voicesTicked_osc (s : State) : (voicesTicked s).osc = oscsAfterTick s.osc := by
  simp [voicesTicked, oscsAfterTick, oscAfterTick_eq, oscOf, PerVoice.get, PerVoice.set]

/-- A voice's level after its tick (40_oscillator.md R102). -/
def levelAfterTick (s : State) (v : Voice) : Bool :=
  decide ((PerVoice.get (oscsAfterTick s.osc) v).c.toNat < (PerVoice.get (oscsAfterTick s.osc) v).w.toNat)

/-- Each tick writes its voice's bit alone, and the voices' ticks do not read each other's registers. -/
theorem voicesTicked_outacc_getLsbD (s : State) (i : Fin 8) :
    (voicesTicked s).outacc.getLsbD i.val =
      if i = voiceBit s .v2 then levelAfterTick s .v2 else if i = voiceBit s .v1 then levelAfterTick s .v1
      else if i = voiceBit s .v0 then levelAfterTick s .v0 else s.outacc.getLsbD i.val := by
  simp only [voicesTicked, advance_outacc, tickVoice_outacc_getLsbD, oscOf_tickVoice]
  rfl

/-- Each voice's bit is its level after its tick, and every other bit is that of before (43_scheduler.md R165). -/
theorem voicesTicked_pattern {s : State} (hdistinct : (voiceBits s.cfg).Nodup)
    (hout : ∀ i : Fin 8, i ∉ voiceBits s.cfg → s.outacc.getLsbD i.val = false) :
    PatternOf s.cfg (voicesTicked s).osc (voicesTicked s).outacc := by
  obtain ⟨⟨h01, h02⟩, h12⟩ : (voiceBit s .v0 ≠ voiceBit s .v1 ∧ voiceBit s .v0 ≠ voiceBit s .v2)
      ∧ voiceBit s .v1 ≠ voiceBit s .v2 := by
    simpa [voiceBits, voiceBit, PerVoice.get] using hdistinct
  rw [voicesTicked_osc]
  refine ⟨fun v => (voicesTicked_outacc_getLsbD s (voiceBit s v)).trans ?_, fun i hi => ?_⟩
  · cases v with
    | v0 => rw [if_neg h02, if_neg h01, if_pos rfl]; rfl
    | v1 => rw [if_neg h12, if_pos rfl]; rfl
    | v2 => rw [if_pos rfl]; rfl
  · obtain ⟨h0, h1, h2⟩ : i ≠ voiceBit s .v0 ∧ i ≠ voiceBit s .v1 ∧ i ≠ voiceBit s .v2 := by
      simpa [voiceBits, voiceBit, PerVoice.get] using hi
    rw [voicesTicked_outacc_getLsbD, if_neg h2, if_neg h1, if_neg h0, hout i hi]

/-- The state after the words from `OSC_TICK 0` to `GLOBAL_READ`, which read the global pair `gp`, `gw`. -/
def tickFront (gp gw : Word) (s : State) : State :=
  advance { advance (portOut (voicesTicked s).outacc (voicesTicked s)) with
    glat := { gp := gp, gw := gw, valid := true } }

theorem atWord_tickFront (gp gw : Word) {s : State} (hat : AtWord 2 s) : AtWord 7 (tickFront gp gw s) :=
  ⟨hat.noFault, hat.rom, by simp [tickFront, voicesTicked, hat.place]⟩

theorem attempts_oscTick {k : Nibble} {v : Voice} {n : Nat} {s w : State} (hat : AtWord k s)
    (hword : decode (Config.defaultRom[k.toNat]'k.isLt) = .ok (.oscTick v false 0))
    (hrest : Attempts n (advance (tickVoice v s)) w) : Attempts (n + 1) s w :=
  attempts_word hat hword (fun _ => exec_oscTick (guardPasses_off 0 _)) hrest

/-- The words at places 2 to 6, which are performed in every tick (43_scheduler.md R162). -/
theorem attempts_front {n : Nat} {s w : State} {gp gw : Word} (hat : AtWord 2 s)
    (hp : readSlot s s.cfg.gslotP = some gp) (hw : readSlot s s.cfg.gslotW = some gw)
    (hrest : Attempts n (tickFront gp gw s) w) : Attempts (n + 5) s w := by
  have hat3 : AtWord 3 (advance (tickVoice .v0 s)) := hat.next rfl rfl rfl rfl
  have hat4 : AtWord 4 (advance (tickVoice .v1 (advance (tickVoice .v0 s)))) := hat3.next rfl rfl rfl rfl
  have hat5 : AtWord 5 (voicesTicked s) := hat4.next rfl rfl rfl rfl
  have hat6 : AtWord 6 (advance (portOut (voicesTicked s).outacc (voicesTicked s))) := hat5.next rfl rfl rfl rfl
  refine attempts_oscTick (v := .v0) hat rfl ?_
  refine attempts_oscTick (v := .v1) hat3 rfl ?_
  refine attempts_oscTick (v := .v2) hat4 rfl ?_
  refine attempts_word (u := advance (portOut (voicesTicked s).outacc (voicesTicked s))) hat5 rfl
    (fun _ => exec_portWrite (guardPasses_off 0 _)) ?_
  refine attempts_word (i := .globalRead false 0) hat6 rfl (fun _ => ?_) hrest
  rw [exec_globalRead (guardPasses_off _ _)]
  exact readGlobals_of_slots hp hw

/-! ### The retunes of the other voices, which are skipped -/

theorem attempts_skip_retune {v : Voice} {n : Nat} {s w : State} (hat : AtWord (mapPlace v) s)
    (hph : phase s ≠ mapPhase v) (hrest : Attempts n (advance (advance s)) w) : Attempts (n + 2) s w := by
  have hat' : AtWord (mapPlace v + 1) (advance s) := hat.next rfl rfl rfl rfl
  exact attempts_word hat (decode_map_word v) (fun _ => exec_skipped_at rfl hph)
    (attempts_word hat' (decode_oscSet_word v) (fun _ => exec_skipped_at rfl hph) hrest)

/-- From the first `MAP` on, the tick that retunes `v` skips the words before `MAP v`. -/
theorem attempts_to_map {v : Voice} {s : State} (hat : AtWord 7 s) (hph : phase s = mapPhase v) :
    Attempts ((mapPlace v).toNat - 7) s { s with upc := mapPlace v } := by
  have hplace := hat.place
  cases v with
  | v0 =>
    have hhere : { s with upc := mapPlace .v0 } = s := by
      show { s with upc := (7 : Nibble) } = s
      rw [← hplace]
    rw [hhere]
    exact .none
  | v1 =>
    have hthere : { s with upc := mapPlace .v1 } = advance (advance s) := by
      simp [advance, hplace, mapPlace]
    rw [hthere]
    exact attempts_skip_retune (v := .v0) hat (by rw [hph]; decide) .none
  | v2 =>
    have hthere : { s with upc := mapPlace .v2 } = advance (advance (advance (advance s))) := by
      simp [advance, hplace, mapPlace]
    have hat8 : AtWord 8 (advance s) := hat.next rfl rfl rfl rfl
    have hat9 : AtWord 9 (advance (advance s)) := hat8.next rfl rfl rfl rfl
    have hph9 : phase (advance (advance s)) = mapPhase .v2 := hph
    rw [hthere]
    exact attempts_skip_retune (v := .v0) hat (by rw [hph]; decide)
      (attempts_skip_retune (v := .v1) hat9 (by rw [hph9]; decide) .none)

/-! ### The tick that halts at `MAP v` -/

/-- `MAP v` where the index check fails: the IDX fault is recorded and nothing after it is attempted
(41_mapper.md R124, 60_exceptions.md R203, R204). -/
theorem attempts_index_fault (n : Nat) {v : Voice} {s : State} {vp vw : Word} (hat : AtWord (mapPlace v) s)
    (hph : phase s = mapPhase v) (hvalid : s.glat.valid = true) (hp : readSlot s (voiceSlotP s v) = some vp)
    (hw : readSlot s (voiceSlotW s v) = some vw) (hsel : selectedIndex s vp = none) :
    Attempts (n + 1) s (raiseFault .idx (BitVec.ofNat 16 (mapIndex vp s.glat.gp)) s) := by
  refine attempts_word hat (decode_map_word v) (fun a => ?_) (attempts_halted n (by simp))
  have hg : guardPasses true (mapPhase v) (withAgents a s) = true := by
    rw [guardPasses_on, beq_iff_eq]
    exact hph.symm
  exact (exec_map_valid hg hvalid).trans (mapVoice_out_of_range hp hw hsel)

/-- The 14 attempts after the opening of a tick that retunes `v` with the index out of range under `fault`. -/
theorem attempts_halting_retune {v : Voice} {s : State} {vp vw gp gw : Word} (hat : AtWord 2 s)
    (hph : phase s = mapPhase v) (hp : readSlot s (voiceSlotP s v) = some vp)
    (hw : readSlot s (voiceSlotW s v) = some vw)
    (hgp : readSlot s s.cfg.gslotP = some gp) (hgw : readSlot s s.cfg.gslotW = some gw)
    (hlen : s.cfg.table.length ≤ mapIndex vp gp) (hpolicy : s.cfg.indexPolicy = .fault) :
    Attempts 14 s
      (raiseFault .idx (BitVec.ofNat 16 (mapIndex vp gp)) { tickFront gp gw s with upc := mapPlace v }) := by
  have hatMap : AtWord (mapPlace v) { tickFront gp gw s with upc := mapPlace v } := ⟨hat.noFault, hat.rom, rfl⟩
  obtain ⟨hlo, hhi, -⟩ := mapPlace_bounds v
  have hcount : 14 = ((mapPlace v).toNat - 7 + (15 - (mapPlace v).toNat + 1)) + 5 := by omega
  have hsel : selectedIndex { tickFront gp gw s with upc := mapPlace v } vp = none :=
    selectIndex_eq_none_iff.mpr ⟨hlen, hpolicy⟩
  rw [hcount]
  exact attempts_front hat hgp hgw
    ((attempts_to_map (atWord_tickFront gp gw hat) hph).trans (attempts_index_fault _ hatMap hph rfl hp hw hsel))

end Sys2Proof.Machine

namespace Sys2Proof.Proofs

open Sys2Proof.Machine Sys2Proof.Safety

/-- Settles O55: the opening of the tick, and then 14 attempts that no move of the agents changes: the words up to
`MAP v`, its fault, and a halted block. -/
theorem retuneTickHaltsWhereTheIndexIsOutOfRange : Obligations.RetuneTickHaltsWhereTheIndexIsOutOfRange := by
  intro v e es rest vp gp index s hi hs hrom hu hin hlen hn helapses hph hp hgp hindex hout hpolicy
  obtain rfl : index = mapIndex vp gp := hindex
  obtain ⟨hr, hc⟩ := hs
  obtain ⟨f, es, rfl⟩ := List.exists_cons_of_length_eq_add_one hlen
  obtain ⟨he, hf, hes⟩ : e.host ≠ .reset ∧ f.host ≠ .reset ∧ NoReset es := by simpa [NoReset] using hn
  obtain ⟨vw, hw⟩ := role_slot_exists hi hr (voiceSlotW_mem_roleSlots s v)
  obtain ⟨gw, hgw⟩ := role_slot_exists hi hr (j := s.cfg.gslotW) (by simp [roleSlots])
  obtain ⟨htimer, -⟩ := hi.timer hr
  obtain ⟨-, -, -, -, hbits, -⟩ := allowed_of_inv hi hr
  have hat : AtWord 0 s := ⟨hc, hrom, hu⟩
  obtain ⟨hopen, hrest⟩ := run_opening hr hat htimer hin (by simp [NoReset, he, hf]) helapses
  obtain ⟨b, hrun, hb⟩ := run_of_attempts
    (attempts_halting_retune (atWord_tickOpened hat) hph hp hw hgp hgw hout hpolicy) hr hrest (Nat.succ.inj hlen) hes
  refine ⟨_, (run_add 2 14 _ _ hopen).trans hrun, hr, rfl, rfl, rfl, hb, voicesTicked_osc _,
    voicesTicked_pattern (s := tickOpened s) hbits hi.output, rfl, ?_, rfl, rfl, rfl⟩
  exact congrArg _ (portWrites_tickOpened s)

end Sys2Proof.Proofs
end

section
/-! The sampler (42_sampler.md): what `SMP_BEGIN` and `SMP_COMPLETE` leave (R140, R141, R145), a sweep of completions over
the channels (R150, R151), and the moves of the agents it waits for (R142, R167, R209). -/

namespace Sys2Proof.Machine

open Sys2Proof.Safety

/-! ### The agents' moves -/

/-- The timer writes its flag alone, and only while it is running (43_scheduler.md R167). -/
theorem timerMove_eq (b : Bool) (s : State) :
    timerMove b s = { s with tmr := { s.tmr with elapsed := s.tmr.elapsed || (b && s.tmr.running) } } := by
  cases h : b && s.tmr.running <;> simp [timerMove, h]

/-- The ADC completes the conversion in flight: the reading and the flag together (42_sampler.md R142). -/
theorem adcMove_busy {s : State} (x : Word) (h : s.adc.busy = true) :
    adcMove (some x) s = { s with adc := { s.adc with busy := false, done := true, result := x } } := by
  rw [adcMove, if_pos h]

/-- Neither agent reads what the other writes (60_exceptions.md R209). -/
theorem adcMove_timerMove_comm (r : Option Word) (b : Bool) (s : State) :
    adcMove r (timerMove b s) = timerMove b (adcMove r s) := by
  cases hbusy : s.adc.busy with
  | false => rw [adcMove_idle r s hbusy, adcMove_idle r _ (by rw [timerMove_adc, hbusy])]
  | true =>
    cases r with
    | none => rfl
    | some x =>
      rw [adcMove_busy x hbusy, adcMove_busy x (by rw [timerMove_adc, hbusy]), timerMove_eq, timerMove_eq]

theorem agentsMove_adc_idle {s : State} (e : EnvMove) (h : s.adc.busy = false) : (agentsMove e s).adc = s.adc := by
  obtain he | ⟨-, hbusy, -⟩ := agentsMove_adc_cases e s
  · exact he
  · cases h.symm.trans hbusy

theorem agentsMove_adc_completes {s : State} {e : EnvMove} {r : Word} (hbusy : s.adc.busy = true)
    (he : e.adcCompletes = some r) :
    (agentsMove e s).adc = { busy := false, done := true, ch := s.adc.ch, result := r } := by
  rw [agentsMove, he, adcMove_busy_adc r _ (by rw [timerMove_adc, hbusy]), timerMove_adc]

/-! ### `SMP_BEGIN` -/

/-- After `SMP_BEGIN` a conversion is in flight, started by it or found (42_sampler.md R140, R141). -/
theorem beginSample_busy (s : State) : (beginSample s).adc.busy = true := by
  obtain ⟨-, hbusy, h⟩ | ⟨-, h⟩ := beginSample_cases s <;> rw [h]
  · exact hbusy
  · rfl

/-- With the default-ROM facts that conversion is of channel `CH` (42_sampler.md R143). -/
theorem beginSample_channel {s : State} (hf : DefaultRomFacts s) : (beginSample s).adc.ch = s.ch := by
  obtain ⟨-, hbusy, h⟩ | ⟨-, h⟩ := beginSample_cases s <;> rw [h]
  · exact hf.inFlight hbusy
  · rfl

/-! ### `SMP_COMPLETE` -/

/-- What `SMP_COMPLETE` leaves when the ADC is done with the reading `x` (42_sampler.md R145). -/
def storeReading (x : Word) (s : State) : State := advance { writeSlot s s.ch.toNat x with ch := nextChannel s }

@[simp] theorem storeReading_slots (x : Word) (s : State) :
    (storeReading x s).slots = s.slots.set s.ch.toNat { value := x, valid := true } := rfl
@[simp] theorem storeReading_ch (x : Word) (s : State) : (storeReading x s).ch = nextChannel s := rfl
@[simp] theorem storeReading_adc (x : Word) (s : State) : (storeReading x s).adc = s.adc := rfl
@[simp] theorem storeReading_cfg (x : Word) (s : State) : (storeReading x s).cfg = s.cfg := rfl

theorem storeReading_getElem? {x : Word} {s : State} (j : Nat) (h : s.ch.toNat < s.slots.length) :
    (storeReading x s).slots[j]? = if j = s.ch.toNat then some { value := x, valid := true } else s.slots[j]? :=
  writeSlot_getElem? s s.ch.toNat j x h

theorem nextChannel_toNat {s : State} (hpos : 0 < s.cfg.nCh) (hmax : s.cfg.nCh ≤ 16) :
    (nextChannel s).toNat = (s.ch.toNat + 1) % s.cfg.nCh := by
  have hlt := Nat.mod_lt (s.ch.toNat + 1) hpos
  rw [nextChannel, channels, BitVec.toNat_ofNat, Nat.mod_eq_of_lt (by omega)]

/-- `SMP_COMPLETE` stores the reading of a conversion that is done. -/
theorem exec_smpComplete_done {g : Bool} {ph : Nibble} {s : State} (hg : guardPasses g ph s = true)
    (hdone : s.adc.done = true) (hslot : s.ch.toNat < s.slots.length) :
    exec (.smpComplete g ph) s = .next (storeReading s.adc.result s) := by
  have hthere : slotAt s s.ch.toNat = some s.slots[s.ch.toNat] := List.getElem?_eq_getElem hslot
  rw [exec_smpComplete hg, if_pos hdone, storeSample, hthere]
  rfl

/-! ### Completions in a row -/

/-- `SMP_COMPLETE` can store the reading `x`, now and again after it has. -/
structure CanStore (x : Word) (s : State) : Prop where
  done : s.adc.done = true
  reading : s.adc.result = x
  storage : s.slots.length = s.cfg.nCh
  channel : s.ch.toNat < s.cfg.nCh
  channelCount : s.cfg.nCh ≤ 16

theorem canStore_of_inv {s : State} (hi : Inv s) (hr : s.rst = false) (hdone : s.adc.done = true) :
    CanStore s.adc.result s := by
  obtain ⟨-, hmax, -⟩ := allowed_of_inv hi hr
  exact ⟨hdone, rfl, (Memory.wf_iff s).mp hi.storage, hi.channel hr, hmax⟩

section
variable {x : Word} {s : State} (h : CanStore x s)
include h

theorem CanStore.toNat_nextChannel : (nextChannel s).toNat = (s.ch.toNat + 1) % s.cfg.nCh :=
  nextChannel_toNat (Nat.zero_lt_of_lt h.channel) h.channelCount

theorem CanStore.after_storeReading : CanStore x (storeReading x s) where
  done := h.done
  reading := h.reading
  storage := by simpa using h.storage
  channel := by
    rw [storeReading_ch, h.toNat_nextChannel]
    exact Nat.mod_lt _ (Nat.zero_lt_of_lt h.channel)
  channelCount := h.channelCount

theorem CanStore.exec_eq : exec (.smpComplete false 0) s = .next (storeReading x s) := by
  rw [exec_smpComplete_done (guardPasses_off 0 s) h.done (by rw [h.storage]; exact h.channel), h.reading]

end

/-- The state after `n` completions in a row with the reading `x`. -/
def storedTimes (x : Word) (n : Nat) (s : State) : State := (storeReading x)^[n] s

theorem storedTimes_succ_last (x : Word) (n : Nat) (s : State) :
    storedTimes x (n + 1) s = storeReading x (storedTimes x n s) := Function.iterate_succ_apply' _ n s

theorem storedTimes_cfg (x : Word) (n : Nat) (s : State) : (storedTimes x n s).cfg = s.cfg := by
  induction n with
  | zero => rfl
  | succ n ih => rw [storedTimes_succ_last, storeReading_cfg, ih]

section
variable {x : Word} {s : State} (h : CanStore x s)
include h

theorem CanStore.after_storedTimes (n : Nat) : CanStore x (storedTimes x n s) :=
  Function.Iterate.rec (CanStore x) h (fun _ => CanStore.after_storeReading) n

theorem CanStore.execTimes_eq (n : Nat) :
    execTimes (.smpComplete false 0) n s = .next (storedTimes x n s) := by
  induction n generalizing s with
  | zero => rfl
  | succ n ih => rw [execTimes_succ_next h.exec_eq, ih h.after_storeReading]; rfl

/-- Each completion moves on by one channel. -/
theorem CanStore.storedTimes_ch (n : Nat) :
    (storedTimes x n s).ch.toNat = (s.ch.toNat + n) % s.cfg.nCh := by
  induction n with
  | zero => exact (Nat.mod_eq_of_lt h.channel).symm
  | succ n ih =>
    rw [storedTimes_succ_last, storeReading_ch, (h.after_storedTimes n).toNat_nextChannel, ih, storedTimes_cfg,
      Nat.mod_add_mod, Nat.add_assoc]

/-- A slot that some completion wrote holds the reading: no later completion writes anything else. -/
theorem CanStore.storedTimes_getElem? {n i : Nat} (hin : i < n) :
    (storedTimes x n s).slots[(s.ch.toNat + i) % s.cfg.nCh]? = some { value := x, valid := true } := by
  induction n with
  | zero => exact absurd hin (Nat.not_lt_zero i)
  | succ n ih =>
    have hready := h.after_storedTimes n
    rw [storedTimes_succ_last, storeReading_getElem? _ (by rw [hready.storage]; exact hready.channel),
      h.storedTimes_ch n]
    split_ifs with hlast
    · rfl
    · have hne : i ≠ n := fun heq => hlast (by rw [heq])
      exact ih (by omega)

end

/-- From any channel, every slot is a number of channels ahead. -/
theorem exists_add_mod_eq {n c j : Nat} (hc : c < n) (hj : j < n) : ∃ i, i < n ∧ (c + i) % n = j := by
  by_cases hle : c ≤ j
  · exact ⟨j - c, by omega, by rw [Nat.add_sub_cancel' hle, Nat.mod_eq_of_lt hj]⟩
  · refine ⟨n + j - c, by omega, ?_⟩
    rw [Nat.add_sub_cancel' (by omega), Nat.add_mod_left, Nat.mod_eq_of_lt hj]

/-- A sweep fills the buffer (42_sampler.md R150, R151). -/
theorem CanStore.storedTimes_slots {x : Word} {s : State} (h : CanStore x s) :
    (storedTimes x s.cfg.nCh s).slots = List.replicate s.cfg.nCh { value := x, valid := true } := by
  have hlen : (storedTimes x s.cfg.nCh s).slots.length = s.cfg.nCh := by
    rw [(h.after_storedTimes _).storage, storedTimes_cfg]
  refine List.eq_replicate_iff.mpr ⟨hlen, fun y hy => ?_⟩
  obtain ⟨j, hj, rfl⟩ := List.mem_iff_getElem.mp hy
  obtain ⟨i, hi, rfl⟩ := exists_add_mod_eq h.channel (hlen ▸ hj)
  exact (List.getElem_eq_iff hj).mpr (h.storedTimes_getElem? hi)

/-! ### Attempts with the ADC at rest -/

/-- `n` attempts of the block in a row take `s` to `w`, whatever the agents do before each, as long as the ADC is `c`. -/
inductive RestingAttempts (c : Adc) : Nat → State → State → Prop
  | none {s : State} : RestingAttempts c 0 s s
  | cons {n : Nat} {s u w : State}
      (hattempt : ∀ a, a.adc = c → blockStep (withAgents a s) = .next (withAgents a u))
      (hrest : RestingAttempts c n u w) : RestingAttempts c (n + 1) s w

/-- Attempts that do not look at the ADC may come before. -/
theorem RestingAttempts.prepend {c : Adc} {m n : Nat} {s u w : State} (h : Attempts m s u)
    (h' : RestingAttempts c n u w) : RestingAttempts c (m + n) s w := by
  induction h with
  | none => rwa [Nat.zero_add]
  | cons hattempt _ ih => rw [Nat.add_right_comm]; exact .cons (fun a _ => hattempt a) (ih h')

/-- An ADC with no conversion in flight stays as it is through such attempts (42_sampler.md R142). -/
theorem run_of_restingAttempts {c : Adc} (hidle : c.busy = false) {n : Nat} {s w : State}
    (h : RestingAttempts c n s w) :
    ∀ {a : State} {es rest : List EnvMove}, s.rst = false → a.adc = c → a.inputs = es ++ rest → es.length = n →
      NoReset es → ∃ b, core.run n (withAgents a s) = .next (withAgents b w) ∧ b.adc = c ∧ b.inputs = rest := by
  induction h with
  | none =>
    intro a es rest _ hadc hin hlen _
    obtain rfl := List.eq_nil_of_length_eq_zero hlen
    exact ⟨a, run_zero _, hadc, hin⟩
  | @cons n s u w hattempt _ ih =>
    intro a es rest hr hadc hin hlen hn
    obtain ⟨e, es, rfl⟩ := List.exists_cons_of_length_eq_add_one hlen
    obtain ⟨he, hes⟩ := List.forall_mem_cons.mp hn
    have hb := hattempt a hadc
    have hru : u.rst = false := by
      obtain ⟨-, -, hrst, -⟩ := blockStep_keeps_environment hb
      exact hrst.trans hr
    have hadc' : (agentsMove e (consumeMove a)).adc = c :=
      (agentsMove_adc_idle (s := consumeMove a) e (by rw [consumeMove_adc, hadc, hidle])).trans hadc
    rw [run_succ_next (step_withAgents hr hb hin he)]
    exact ih hru hadc' (by rw [agentsMove_inputs, consumeMove_inputs, hin]; rfl) (Nat.succ.inj hlen) hes

/-! ### The words after `GLOBAL_READ` in a tick without a retune -/

theorem attempts_skip_retunes {s : State} (hat : AtWord 7 s) (hph : ∀ v, phase s ≠ mapPhase v) :
    Attempts 6 s { s with upc := 13 } := by
  have hthere : { s with upc := 13 } = advance (advance (advance (advance (advance (advance s))))) := by
    simp [advance, hat.place]
  have hat9 : AtWord 9 (advance (advance s)) := ⟨hat.noFault, hat.rom, by simp [hat.place]⟩
  have hat11 : AtWord 11 (advance (advance (advance (advance s)))) := ⟨hat.noFault, hat.rom, by simp [hat.place]⟩
  rw [hthere]
  exact attempts_skip_retune (v := .v0) hat (hph .v0)
    (attempts_skip_retune (v := .v1) hat9 (hph .v1) (attempts_skip_retune (v := .v2) hat11 (hph .v2) .none))

/-- `CNT_INC` and `LOOP`, which end every tick (43_scheduler.md R172, R174). -/
theorem attempts_close {s : State} (hat : AtWord 14 s) : Attempts 2 s { s with tc := s.tc + 1, upc := 0 } := by
  have hat' : AtWord 15 (advance { s with tc := s.tc + 1 }) := hat.next rfl rfl rfl rfl
  refine attempts_word (i := .cntInc false 0) (u := advance { s with tc := s.tc + 1 }) hat rfl
    (fun _ => exec_cntInc (guardPasses_off 0 _)) ?_
  exact attempts_word (i := .loop false 0) (u := { s with tc := s.tc + 1, upc := 0 }) hat' rfl
    (fun _ => exec_loop (guardPasses_off 0 _)) .none

/-- `SMP_COMPLETE` at its phase, with the conversion done. -/
theorem blockStep_smpComplete_word {a s : State} (hat : AtWord 13 s) (hph : phase s = 0) (hdone : a.adc.done = true)
    (hslot : s.ch.toNat < s.slots.length) :
    blockStep (withAgents a s) = .next (withAgents a (storeReading a.adc.result s)) := by
  have hg : guardPasses true 0 (withAgents a s) = true := by
    rw [guardPasses_on, beq_iff_eq]
    exact hph.symm
  rw [blockStep_atWord (i := .smpComplete true 0) (hat.withAgents a) rfl]
  exact exec_smpComplete_done hg hdone hslot

/-- The state that the tick at phase 0 leaves, but for the agents' part, with the reading `x` and the global pair `gp`,
`gw`. -/
def sampleTickEnd (x gp gw : Word) (s : State) : State :=
  { storeReading x { tickFront gp gw s with upc := 13 } with tc := s.tc + 1, upc := 0 }

/-- The 14 attempts after the opening of the tick at phase 0, with the conversion done. -/
theorem restingAttempts_sample {c : Adc} {s : State} {gp gw : Word} (hat : AtWord 2 s) (hph : phase s = 0)
    (hdone : c.done = true) (hslot : s.ch.toNat < s.slots.length)
    (hgp : readSlot s s.cfg.gslotP = some gp) (hgw : readSlot s s.cfg.gslotW = some gw) :
    RestingAttempts c 14 s (sampleTickEnd c.result gp gw s) := by
  have hnone : ∀ v, phase (tickFront gp gw s) ≠ mapPhase v := by
    intro v
    have hph' : phase (tickFront gp gw s) = 0 := hph
    rw [hph']
    cases v <;> decide
  have hat13 : AtWord 13 { tickFront gp gw s with upc := 13 } := ⟨hat.noFault, hat.rom, rfl⟩
  have hat14 : AtWord 14 (storeReading c.result { tickFront gp gw s with upc := 13 }) := hat13.next rfl rfl rfl rfl
  have hbefore : Attempts 11 s { tickFront gp gw s with upc := 13 } :=
    attempts_front hat hgp hgw (attempts_skip_retunes (atWord_tickFront gp gw hat) hnone)
  refine RestingAttempts.prepend hbefore (.cons (fun a ha => ?_) (.prepend (attempts_close hat14) .none))
  subst ha
  exact blockStep_smpComplete_word hat13 hph hdone hslot

theorem openingAgents_adc {e f : EnvMove} {s : State} {r : Word} (he : e.adcCompletes = some r) :
    (openingAgents e f s).adc = { busy := false, done := true, ch := (beginSample s).adc.ch, result := r } := by
  have hdone : (tickClear (agentsMove e (consumeMove (beginSample s)))).adc
      = { busy := false, done := true, ch := (beginSample s).adc.ch, result := r } :=
    agentsMove_adc_completes (s := consumeMove (beginSample s)) (beginSample_busy s) he
  exact (agentsMove_adc_idle (s := consumeMove _) f (by rw [consumeMove_adc, hdone])).trans hdone

end Sys2Proof.Machine

namespace Sys2Proof.Proofs

open Sys2Proof.Machine Sys2Proof.Safety

/-- Settles O11: performed, `SMP_BEGIN` is `beginSample` and then `advance`, and `beginSample` does nothing exactly when
starts are gated and a conversion is in flight. -/
theorem smpBeginStartsConversionOnCurrentChannel : Obligations.SmpBeginStartsConversionOnCurrentChannel := by
  refine ⟨fun g ph s (hperf : guardPasses g ph s = true) => ?_,
    fun g ph => encodedAs_of_fields (by simp [opcode, operand]), rfl⟩
  rw [exec_smpBegin hperf]
  obtain ⟨hgated, hbusy, h⟩ | ⟨hstart, h⟩ := beginSample_cases s
  · rw [h, if_pos ⟨hgated, hbusy⟩]
    rfl
  · have hnot : ¬ (s.cfg.adcStartGated = true ∧ s.adc.busy = true) := by
      rintro ⟨hgated, hbusy⟩
      simp [hgated, hbusy] at hstart
    rw [h, if_neg hnot]
    rfl

/-- Settles O17: performed, `SMP_COMPLETE` looks at the ADC's flag alone, and then holds or is `storeReading`. -/
theorem smpCompleteStoresTheReadingOrHolds : Obligations.SmpCompleteStoresTheReadingOrHolds := by
  refine ⟨fun g ph s (hperf : guardPasses g ph s = true) => ⟨fun hwait => ?_, fun hdone hslot hpos hmax => ?_⟩,
    fun g ph => encodedAs_of_fields (by simp [opcode, operand]), rfl⟩
  · rw [exec_smpComplete hperf, hwait]
    rfl
  · refine ⟨storeReading s.adc.result s, exec_smpComplete_done hperf hdone hslot, rfl, nextChannel_toNat hpos hmax, ?_,
      by simp, fun j hj => ?_⟩
    · rw [storeReading_getElem? _ hslot, if_pos rfl]
    · rw [storeReading_getElem? _ hslot, if_neg hj]

/-- Settles O34: each agent's move is one equation, and neither reads the other's part. -/
theorem agentsMoveIndependently : Obligations.AgentsMoveIndependently := by
  intro b r s
  refine ⟨adcMove_timerMove_comm r b s, timerMove_eq b s, adcMove_idle r s, ?_⟩
  rintro hbusy x rfl
  exact adcMove_busy x hbusy

/-- Settles O49: every slot is a number of channels below `N_CH` ahead of `CH`, so one of the completions wrote it. -/
theorem sweepWritesEverySlot : Obligations.SweepWritesEverySlot := by
  intro s hi hr hdone
  have hstore := canStore_of_inv hi hr hdone
  refine ⟨storedTimes s.adc.result s.cfg.nCh s, hstore.execTimes_eq _, BitVec.eq_of_toNat_eq ?_,
    hstore.storedTimes_slots⟩
  rw [hstore.storedTimes_ch, Nat.add_mod_right, Nat.mod_eq_of_lt hstore.channel]

/-- Settles O52: the opening of the tick, in which the ADC completes, and then 14 attempts with the ADC at rest: the words
up to `SMP_COMPLETE`, its store, and the close of the tick. -/
theorem sampleTickStoresTheReading : Obligations.SampleTickStoresTheReading := by
  intro e es rest r s hi hs hrom hu hin hlen hn helapses hcompletes hph
  obtain ⟨hr, hc⟩ := hs
  obtain ⟨f, es, rfl⟩ := List.exists_cons_of_length_eq_add_one hlen
  obtain ⟨he, hf, hes⟩ : e.host ≠ .reset ∧ f.host ≠ .reset ∧ NoReset es := by simpa [NoReset] using hn
  obtain ⟨gp, hgp⟩ := role_slot_exists hi hr (j := s.cfg.gslotP) (by simp [roleSlots])
  obtain ⟨gw, hgw⟩ := role_slot_exists hi hr (j := s.cfg.gslotW) (by simp [roleSlots])
  obtain ⟨htimer, -⟩ := hi.timer hr
  obtain ⟨hmin, hmax, -, -, hbits, -⟩ := allowed_of_inv hi hr
  have hslot : s.ch.toNat < s.slots.length := by
    rw [(Memory.wf_iff s).mp hi.storage]
    exact hi.channel hr
  have hat : AtWord 0 s := ⟨hc, hrom, hu⟩
  obtain ⟨hopen, hrest⟩ := run_opening hr hat htimer hin (by simp [NoReset, he, hf]) helapses
  obtain ⟨b, hrun, hadc, hb⟩ := run_of_restingAttempts rfl
    (restingAttempts_sample (atWord_tickOpened hat) hph rfl hslot hgp hgw) hr (openingAgents_adc hcompletes) hrest
    (Nat.succ.inj hlen) hes
  have hadc' : (withAgents b (sampleTickEnd r gp gw (tickOpened s))).adc
      = { busy := false, done := true, ch := (beginSample s).adc.ch, result := r } := hadc
  refine ⟨_, (run_add 2 14 _ _ hopen).trans hrun, ⟨hr, hc⟩, rfl, rfl, hb, voicesTicked_osc _,
    voicesTicked_pattern (s := tickOpened s) hbits hi.output, rfl, ?_, rfl,
    nextChannel_toNat (s := s) (by omega) hmax, rfl, by rw [hadc'], by rw [hadc'], fun hfacts => ?_⟩
  · exact congrArg _ (portWrites_tickOpened s)
  · rw [hadc']
    exact beginSample_channel (hfacts hrom)

end Sys2Proof.Proofs
end

section
/-! The scheduler's words (43_scheduler.md R166 to R174), the wait for the tick boundary (R166, R167), and whole ticks of
the default micro-program without a retune and with one (R160 to R165), chained as in the halting tick above. -/

namespace Sys2Proof.Machine

open Sys2Proof.Safety

/-! ### The wait for the tick boundary -/

/-- The block is to attempt a `TICK_WAIT` that its guard lets be performed. -/
structure AtTickWait (g : Bool) (ph : Nibble) (s : State) : Prop where
  noFault : s.fault.cause = .none
  word : decode (fetch s) = .ok (.tickWait g ph)
  performed : guardPasses g ph s = true

/-- What `TICK_WAIT` leaves once the flag is set, but for the agents' part. -/
def tickTaken (s : State) : State := advance { s with events := .tmrClear :: s.events }

theorem atTickWait_tickBegun {s : State} (hat : AtWord 0 s) : AtTickWait false 0 (tickBegun s) := by
  have hat1 : AtWord 1 (tickBegun s) := hat.next rfl rfl rfl rfl
  exact ⟨hat1.noFault, by rw [fetch_defaultRom hat1.rom (k := 1) (by decide) (by rw [hat1.place]; rfl)]; rfl,
    guardPasses_off 0 _⟩

section
variable {g : Bool} {ph : Nibble} {s : State} (hat : AtTickWait g ph s)
include hat

/-- Whether the block stands at such a word is no matter of the agents. -/
theorem AtTickWait.withAgents (a : State) : AtTickWait g ph (withAgents a s) :=
  ⟨hat.noFault, hat.word, hat.performed⟩

theorem blockStep_tickWait : blockStep s = if s.tmr.elapsed then .next (advance (tickClear s)) else .next s := by
  rw [blockStep_running hat.noFault hat.word, exec_tickWait hat.performed]

theorem blockStep_tickWait_holds {a : State} (hflag : a.tmr.elapsed = false) :
    blockStep (withAgents a s) = .next (withAgents a s) := by
  have hflag' : (withAgents a s).tmr.elapsed = false := hflag
  rw [blockStep_tickWait (hat.withAgents a), hflag']
  rfl

/-- `blockStep_tickWait_word` for any micro-program and any guard. -/
theorem blockStep_tickWait_takes {a : State} (hflag : a.tmr.elapsed = true) :
    blockStep (withAgents a s) = .next (withAgents (tickClear a) (tickTaken s)) := by
  have hflag' : (withAgents a s).tmr.elapsed = true := hflag
  rw [blockStep_tickWait (hat.withAgents a), if_pos hflag']
  rfl

/-- While the timer does not elapse only the agents move, however long (43_scheduler.md R166). -/
theorem run_tickWait_holds (hr : s.rst = false) {ws rest : List EnvMove} (hn : NoReset ws)
    (hquiet : ∀ x ∈ ws, x.timerElapses = false) :
    ∀ {a : State}, a.tmr.elapsed = false → a.inputs = ws ++ rest →
      ∃ b, core.run ws.length (withAgents a s) = .next (withAgents b s)
        ∧ b.tmr = a.tmr ∧ b.inputs = rest := by
  induction ws with
  | nil => exact fun {a} _ hin => ⟨a, run_zero _, rfl, hin⟩
  | cons x ws ih =>
    intro a hflag hin
    obtain ⟨hx, hws⟩ := List.forall_mem_cons.mp hn
    obtain ⟨hxquiet, hwsquiet⟩ := List.forall_mem_cons.mp hquiet
    have htmr : (agentsMove x (consumeMove a)).tmr = a.tmr := by simp [hxquiet]
    have hin' : (agentsMove x (consumeMove a)).inputs = ws ++ rest := by simp [hin]
    obtain ⟨b, hrun, hbtmr, hb⟩ := ih hws hwsquiet (by rw [htmr, hflag]) hin'
    have hstep := step_withAgents hr (blockStep_tickWait_holds hat hflag) hin hx
    exact ⟨b, (run_succ_next hstep).trans hrun, hbtmr.trans htmr, hb⟩

/-- However long it has held, the wait ends with the attempt after the running timer elapses (R166, R167). -/
theorem run_tickWait_ends (hr : s.rst = false) {a : State} {ws rest : List EnvMove} {e f : EnvMove}
    (hn : NoReset (ws ++ [e, f])) (hquiet : ∀ x ∈ ws, x.timerElapses = false) (helapses : e.timerElapses = true)
    (hflag : a.tmr.elapsed = false) (hrunning : a.tmr.running = true) (hin : a.inputs = ws ++ e :: f :: rest) :
    ∃ b, core.run (ws.length + 2) (withAgents a s) = .next (withAgents b (tickTaken s))
      ∧ b.tmr.elapsed = f.timerElapses ∧ b.inputs = rest := by
  obtain ⟨hws, hlast⟩ := List.forall_mem_append.mp hn
  obtain ⟨b, hheld, hbtmr, hb⟩ := run_tickWait_holds hat hr hws hquiet hflag hin
  have helapsed := step_withAgents hr (blockStep_tickWait_holds hat (by rw [hbtmr, hflag])) hb (hlast e (by simp))
  have hset : (agentsMove e (consumeMove b)).tmr.elapsed = true := by simp [hbtmr, hrunning, helapses]
  have hin' : (agentsMove e (consumeMove b)).inputs = f :: rest := by simp [hb]
  have htaken := step_withAgents hr (blockStep_tickWait_takes hat hset) hin' (hlast f (by simp))
  have hrun := (run_add ws.length 2 _ _ hheld).trans
    ((run_succ_next helapsed).trans ((run_succ_next htaken).trans (run_zero _)))
  exact ⟨_, hrun, by simp [hbtmr, hrunning], by simp [hb]⟩

end

/-- The first two words of a tick whose wait is held until the timer elapses with the move `f` (R163, R166). -/
theorem run_held_opening {s : State} {e f g : EnvMove} {ws rest : List EnvMove} (hr : s.rst = false)
    (hat : AtWord 0 s) (hrunning : s.tmr.running = true) (hflag : s.tmr.elapsed = false)
    (hin : s.inputs = e :: (ws ++ f :: g :: rest)) (hn : NoReset (e :: (ws ++ [f, g])))
    (hquiet : ∀ x ∈ e :: ws, x.timerElapses = false) (helapses : f.timerElapses = true) :
    ∃ b, core.run (ws.length + 3) s = .next (withAgents b (tickOpened s)) ∧ b.inputs = rest := by
  obtain ⟨he, hws⟩ := List.forall_mem_cons.mp hn
  obtain ⟨hequiet, hwsquiet⟩ := List.forall_mem_cons.mp hquiet
  have hbegin := step_withAgents (a := s) (s := s) hr (blockStep_smpBegin_word hat) hin he
  obtain ⟨b, hwait, -, hb⟩ := run_tickWait_ends (atTickWait_tickBegun hat) hr (rest := rest)
    (a := agentsMove e (consumeMove (beginSample s))) hws hwsquiet helapses
    (by simp [beginSample_tmr, hflag, hequiet]) (by simp [beginSample_tmr, hrunning])
    (by simp [beginSample_inputs, hin])
  exact ⟨b, (run_succ_next hbegin).trans hwait, hb⟩

/-! ### The end of a tick without a sample -/

/-- From `SMP_COMPLETE`, which is skipped at every phase but 0, to the next tick. -/
theorem attempts_close_unsampled {s : State} (hat : AtWord 13 s) (hph : phase s ≠ 0) :
    Attempts 3 s { s with tc := s.tc + 1, upc := 0 } := by
  have hat14 : AtWord 14 (advance s) := hat.next rfl rfl rfl rfl
  exact attempts_word (i := .smpComplete true 0) (u := advance s) hat rfl (fun _ => exec_skipped_at rfl hph)
    (attempts_close hat14)

/-! ### A tick without a retune and without a sample -/

/-- The state that such a tick leaves, but for the agents' part, with the global pair `gp`, `gw`. -/
def quietTickEnd (gp gw : Word) (s : State) : State := { tickFront gp gw s with tc := s.tc + 1, upc := 0 }

/-- The 14 attempts after the opening: no guarded word has the tick's phase (43_scheduler.md R162). -/
theorem attempts_quiet {s : State} {gp gw : Word} (hat : AtWord 2 s) (hzero : phase s ≠ 0)
    (hretune : ∀ v, phase s ≠ mapPhase v)
    (hgp : readSlot s s.cfg.gslotP = some gp) (hgw : readSlot s s.cfg.gslotW = some gw) :
    Attempts 14 s (quietTickEnd gp gw s) := by
  have hat13 : AtWord 13 { tickFront gp gw s with upc := 13 } := ⟨hat.noFault, hat.rom, rfl⟩
  exact attempts_front hat hgp hgw
    ((attempts_skip_retunes (atWord_tickFront gp gw hat) hretune).trans (attempts_close_unsampled hat13 hzero))

/-- `n` steps from the start of a tick reach the start of the next one, no voice retuned and no sample stored: what O51
and O54 say of their ticks. -/
def RunsQuietTick (n : Nat) (rest : List EnvMove) (s : State) : Prop :=
  ∃ t, core.run n s = .next t ∧ Running t ∧ t.upc = 0 ∧ t.tc = s.tc + 1 ∧ t.inputs = rest
    ∧ t.osc = oscsAfterTick s.osc ∧ PatternOf s.cfg t.osc t.outacc ∧ t.port = some t.outacc
    ∧ portWrites t.events = t.outacc :: portWrites s.events
    ∧ t.slots = s.slots ∧ t.ch = s.ch ∧ t.mapout = s.mapout

/-- Whatever its opening took, a tick without a retune and without a sample takes 14 steps more. -/
theorem runsQuietTick_of_opening {n : Nat} {a s : State} {es rest : List EnvMove} (hi : Inv s) (hr : s.rst = false)
    (hat : AtWord 0 s) (hzero : phase s ≠ 0) (hretune : ∀ v, phase s ≠ mapPhase v)
    (hopen : core.run n s = .next (withAgents a (tickOpened s))) (hin : a.inputs = es ++ rest) (hlen : es.length = 14)
    (hn : NoReset es) : RunsQuietTick (n + 14) rest s := by
  obtain ⟨gp, hgp⟩ := role_slot_exists hi hr (j := s.cfg.gslotP) (by simp [roleSlots])
  obtain ⟨gw, hgw⟩ := role_slot_exists hi hr (j := s.cfg.gslotW) (by simp [roleSlots])
  obtain ⟨-, -, -, -, hbits, -⟩ := allowed_of_inv hi hr
  obtain ⟨b, hrun, hb⟩ := run_of_attempts
    (attempts_quiet (atWord_tickOpened hat) hzero hretune hgp hgw) hr hin hlen hn
  refine ⟨_, (run_add n 14 _ _ hopen).trans hrun, ⟨hr, hat.noFault⟩, rfl, rfl, hb, voicesTicked_osc _,
    voicesTicked_pattern (s := tickOpened s) hbits hi.output, rfl, ?_, rfl, rfl, rfl⟩
  exact congrArg _ (portWrites_tickOpened s)

theorem phase_ne_mapPhase {s : State} (h4 : phase s ≠ 4) (h8 : phase s ≠ 8) (h12 : phase s ≠ 12) :
    ∀ v, phase s ≠ mapPhase v
  | .v0 => h4
  | .v1 => h8
  | .v2 => h12

/-! ### A tick that retunes a voice -/

/-- What `MAP v` and `OSC_SET v` leave together, the table read at `i` with the entry `period`. -/
def retuned (v : Voice) (i : Nat) (period vw : Word) (s : State) : State :=
  advance (setVoice v (afterMap i period vw s))

/-- The two words of a retune at their phase (41_mapper.md R122, R124, 40_oscillator.md R110). -/
theorem attempts_retune {v : Voice} {n i : Nat} {s w : State} {vp vw period : Word} (hat : AtWord (mapPlace v) s)
    (hph : phase s = mapPhase v) (hvalid : s.glat.valid = true) (hp : readSlot s (voiceSlotP s v) = some vp)
    (hw : readSlot s (voiceSlotW s v) = some vw) (hsel : selectedIndex s vp = some i)
    (hentry : s.cfg.table[i]? = some period) (hrest : Attempts n (retuned v i period vw s) w) :
    Attempts (n + 2) s w := by
  have hg : guardPasses true (mapPhase v) s = true := by
    rw [guardPasses_on, beq_iff_eq]
    exact hph.symm
  have hat' : AtWord (mapPlace v + 1) (afterMap i period vw s) := hat.next rfl rfl rfl rfl
  refine attempts_word (u := afterMap i period vw s) hat (decode_map_word v) (fun a => ?_)
    (attempts_word (u := retuned v i period vw s) hat' (decode_oscSet_word v) (fun a => ?_) hrest)
  · exact (exec_map_valid (s := withAgents a s) hg hvalid).trans (mapVoice_selected (s := withAgents a s) hp hw hsel hentry)
  · exact (exec_oscSet (s := withAgents a (afterMap i period vw s)) hg).trans (if_pos rfl)

/-- After the retune of `v` the words of the later voices' retunes are skipped. -/
theorem attempts_skip_after_retune {v : Voice} {s : State} (hat : AtWord (mapPlace v + 2) s)
    (hph : phase s = mapPhase v) : Attempts (11 - (mapPlace v).toNat) s { s with upc := 13 } := by
  have hplace := hat.place
  cases v with
  | v0 =>
    have hthere : { s with upc := 13 } = advance (advance (advance (advance s))) := by
      simp [advance, hplace, mapPlace]
    have hat11 : AtWord 11 (advance (advance s)) := ⟨hat.noFault, hat.rom, by simp [hplace, mapPlace]⟩
    have hph11 : phase (advance (advance s)) = mapPhase .v0 := hph
    rw [hthere]
    exact attempts_skip_retune (v := .v1) hat (by rw [hph]; decide)
      (attempts_skip_retune (v := .v2) hat11 (by rw [hph11]; decide) .none)
  | v1 =>
    have hthere : { s with upc := 13 } = advance (advance s) := by
      simp [advance, hplace, mapPlace]
    rw [hthere]
    exact attempts_skip_retune (v := .v2) hat (by rw [hph]; decide) .none
  | v2 =>
    have hhere : { s with upc := 13 } = s := by
      show { s with upc := mapPlace .v2 + 2 } = s
      rw [← hplace]
    rw [hhere]
    exact .none

/-- The state that the tick retuning `v` leaves, but for the agents' part. -/
def retuneTickEnd (v : Voice) (i : Nat) (period vw gp gw : Word) (s : State) : State :=
  { retuned v i period vw { tickFront gp gw s with upc := mapPlace v } with tc := s.tc + 1, upc := 0 }

/-- The 14 attempts after the opening of a tick that retunes `v` from the entry at the selected index `i`. -/
theorem attempts_retune_tick {v : Voice} {i : Nat} {s : State} {vp vw gp gw period : Word} (hat : AtWord 2 s)
    (hph : phase s = mapPhase v) (hp : readSlot s (voiceSlotP s v) = some vp)
    (hw : readSlot s (voiceSlotW s v) = some vw)
    (hgp : readSlot s s.cfg.gslotP = some gp) (hgw : readSlot s s.cfg.gslotW = some gw)
    (hsel : selectIndex s.cfg.indexPolicy s.cfg.table.length (mapIndex vp gp) = some i)
    (hentry : s.cfg.table[i]? = some period) : Attempts 14 s (retuneTickEnd v i period vw gp gw s) := by
  have hatMap : AtWord (mapPlace v) { tickFront gp gw s with upc := mapPlace v } := ⟨hat.noFault, hat.rom, rfl⟩
  have hatSkip : AtWord (mapPlace v + 2) (retuned v i period vw { tickFront gp gw s with upc := mapPlace v }) :=
    ⟨hat.noFault, hat.rom, add_assoc (mapPlace v) 1 1⟩
  have hat13 : AtWord 13
      { retuned v i period vw { tickFront gp gw s with upc := mapPlace v } with upc := 13 } :=
    ⟨hat.noFault, hat.rom, rfl⟩
  have hzero : phase s ≠ 0 := by
    rw [hph]
    cases v <;> decide
  have hcount : 14 = ((mapPlace v).toNat - 7 + (11 - (mapPlace v).toNat + 3 + 2)) + 5 := by
    cases v <;> rfl
  rw [hcount]
  exact attempts_front hat hgp hgw ((attempts_to_map (atWord_tickFront gp gw hat) hph).trans
    (attempts_retune hatMap hph rfl hp hw hsel hentry
      ((attempts_skip_after_retune hatSkip hph).trans (attempts_close_unsampled hat13 hzero))))

/-- The voice has the mapper's period and pulse width and keeps its countdown; the others only ticked. -/
theorem retuneTickEnd_osc (v : Voice) (i : Nat) (period vw gp gw : Word) (s : State) :
    (retuneTickEnd v i period vw gp gw s).osc = PerVoice.set (oscsAfterTick s.osc) v
      { p := period, w := mapPulse period vw gw, c := (PerVoice.get (oscsAfterTick s.osc) v).c } := by
  rw [← voicesTicked_osc]
  rfl

end Sys2Proof.Machine

namespace Sys2Proof.Proofs

open Sys2Proof.Machine Sys2Proof.Safety

/-- Settles O53: the opening of the tick, and then 14 attempts that no move of the agents changes: the words up to
`GLOBAL_READ`, among them the port write, then the retune of `v`, and the close of the tick. -/
theorem retuneTickAppliesTheMapperResult : Obligations.RetuneTickAppliesTheMapperResult := by
  intro v e es rest vp vw gp gw period index i s hi hs hrom hu hin hlen hn helapses hph hp hw hgp hgw hindex hsel hentry
  obtain rfl : index = mapIndex vp gp := hindex
  obtain ⟨hr, hc⟩ := hs
  obtain ⟨f, es, rfl⟩ := List.exists_cons_of_length_eq_add_one hlen
  obtain ⟨he, hf, hes⟩ : e.host ≠ .reset ∧ f.host ≠ .reset ∧ NoReset es := by simpa [NoReset] using hn
  obtain ⟨htimer, -⟩ := hi.timer hr
  obtain ⟨-, -, -, -, hbits, -⟩ := allowed_of_inv hi hr
  have hat : AtWord 0 s := ⟨hc, hrom, hu⟩
  obtain ⟨hopen, hrest⟩ := run_opening hr hat htimer hin (by simp [NoReset, he, hf]) helapses
  obtain ⟨b, hrun, hb⟩ := run_of_attempts
    (attempts_retune_tick (atWord_tickOpened hat) hph hp hw hgp hgw (selectIndex_eq_some_iff.mpr hsel) hentry)
    hr hrest (Nat.succ.inj hlen) hes
  have hpattern := voicesTicked_pattern (s := tickOpened s) hbits hi.output
  rw [voicesTicked_osc] at hpattern
  refine ⟨_, (run_add 2 14 _ _ hopen).trans hrun, ⟨hr, hc⟩, rfl, rfl, hb, retuneTickEnd_osc v i period vw gp gw _,
    hpattern, rfl, ?_, rfl, rfl, rfl⟩
  exact congrArg _ (portWrites_tickOpened s)

/-- Settles O51: the opening of a tick at which the timer elapses in time, and then its other 14 words. -/
theorem quietTickRunsToTheNextTick : Obligations.QuietTickRunsToTheNextTick := by
  intro e es rest s hi hs hrom hu hin hlen hn helapses h0 h4 h8 h12
  obtain ⟨hr, hc⟩ := hs
  obtain ⟨f, es, rfl⟩ := List.exists_cons_of_length_eq_add_one hlen
  obtain ⟨he, hf, hes⟩ : e.host ≠ .reset ∧ f.host ≠ .reset ∧ NoReset es := by simpa [NoReset] using hn
  obtain ⟨htimer, -⟩ := hi.timer hr
  have hat : AtWord 0 s := ⟨hc, hrom, hu⟩
  obtain ⟨hopen, hrest⟩ := run_opening hr hat htimer hin (by simp [NoReset, he, hf]) helapses
  exact runsQuietTick_of_opening hi hr hat h0 (phase_ne_mapPhase h4 h8 h12) hopen hrest (Nat.succ.inj hlen) hes

/-- Settles O54: the opening of a tick whose wait is held, and then the same 14 words as in O51. -/
theorem heldWaitOnlyDelaysTheTick : Obligations.HeldWaitOnlyDelaysTheTick := by
  intro e f ws es rest s hi hs hrom hu hflag hin hlen hn hquiet helapses h0 h4 h8 h12
  obtain ⟨hr, hc⟩ := hs
  obtain ⟨g, es, rfl⟩ := List.exists_cons_of_length_eq_add_one hlen
  have hopening : NoReset (e :: (ws ++ [f, g])) := fun x hx => hn x (by simp at hx ⊢; tauto)
  have hes : NoReset es := fun x hx => hn x (by simp [hx])
  obtain ⟨htimer, -⟩ := hi.timer hr
  have hat : AtWord 0 s := ⟨hc, hrom, hu⟩
  obtain ⟨b, hopen, hrest⟩ := run_held_opening (rest := es ++ rest) hr hat htimer hflag (by simpa using hin) hopening
    hquiet helapses
  exact runsQuietTick_of_opening hi hr hat h0 (phase_ne_mapPhase h4 h8 h12) hopen hrest (Nat.succ.inj hlen) hes

/-- Settles O30: the wait holds through `es` and through the attempt before the elapse, and the next attempt takes the
flag. -/
theorem tickWaitEndsWhenTheTimerElapses : Obligations.TickWaitEndsWhenTheTimerElapses := by
  intro es rest e f s g ph ⟨hr, hc⟩ hword hperf hflag hrunning hin hn hquiet helapses hfquiet
  obtain ⟨b, hrun, hbflag, hb⟩ := run_tickWait_ends ⟨hc, hword, hperf⟩ hr hn hquiet helapses hflag hrunning hin
  exact ⟨_, hrun, rfl, hbflag.trans hfquiet, rfl, hb, rfl, rfl, rfl, rfl⟩

/-- Settles O38: `step_total`, with the check of the configuration read as R10 states it. -/
theorem noStepStopsTheMachine : Obligations.NoStepStopsTheMachine := by
  intro s hi
  obtain hnext | ⟨hrefused, hheld, hillegal⟩ := step_total hi
  · exact .inl hnext
  · refine .inr ⟨hrefused, hheld, fun hallowed => ?_⟩
    rw [(paramsLegal_iff s.cfg).mpr hallowed] at hillegal
    cases hillegal

/-- Settles O12: performed, `TICK_WAIT` looks at the timer's flag alone. -/
theorem tickWaitClearsTheFlagOrHolds : Obligations.TickWaitClearsTheFlagOrHolds := by
  refine ⟨fun g ph s (hperf : guardPasses g ph s = true) => ⟨fun hset => ?_, fun hclear => ?_⟩,
    fun g ph => encodedAs_of_fields (by simp [opcode, operand]), rfl⟩
  · rw [exec_tickWait hperf, if_pos hset]
    rfl
  · rw [exec_tickWait hperf, hclear]
    rfl

/-- Settles O19: performed, `PORT_WRITE` is `portOut` of the accumulator and then `advance`. -/
theorem portWriteShowsTheAccumulator : Obligations.PortWriteShowsTheAccumulator :=
  ⟨fun _ _ _ hperf => exec_portWrite hperf, fun _ _ => encodedAs_of_fields (by simp [opcode, operand]), rfl⟩

/-- Settles O20: the counter is 8 bits wide, and the phase is its low 4. -/
theorem cntIncAdvancesTheTickCounter : Obligations.CntIncAdvancesTheTickCounter := by
  refine ⟨fun g ph s hperf => ?_, fun g ph => encodedAs_of_fields (by simp [opcode, operand]), rfl⟩
  have htc : (s.tc + 1).toNat = (s.tc.toNat + 1) % 256 := BitVec.toNat_add s.tc 1
  refine ⟨advance { s with tc := s.tc + 1 }, exec_cntInc hperf, rfl, htc, ?_⟩
  rw [phase_toNat, phase_toNat, advance_tc, htc]
  omega

/-- Settles O21: performed, `LOOP` writes `upc` alone. -/
theorem loopReturnsToTheStart : Obligations.LoopReturnsToTheStart :=
  ⟨fun _ _ _ hperf => exec_loop hperf, fun _ _ => encodedAs_of_fields (by simp [opcode, operand]), rfl⟩

/-- Settles O50: the sixteen words decoded and their guards compared, at each of the sixteen phases. -/
theorem defaultScheduleByPhase : Obligations.DefaultScheduleByPhase := by
  unfold Obligations.DefaultScheduleByPhase
  decide

end Sys2Proof.Proofs
end

section
/-! Faults and holds (60_exceptions.md R201 to R207): what an attempt that records a fault leaves, what a halted block
does, and the two waits that no fault ends. A halted block and a block at a wait are one shape: an attempt that changes
nothing, as long as the agents leave alone what the word waits for. -/

namespace Sys2Proof.Machine

open Sys2Proof.Safety

/-! ### Recording a fault -/

/-- `MAP` looks at the index only behind a valid `GLAT` (60_exceptions.md R206). -/
theorem glat_valid_of_map_indexFault {v : Voice} {g : Bool} {ph : Nibble} {x : Word} {s : State}
    (h : exec (.map v g ph) s = .next (raiseFault .idx x s)) : s.glat.valid = true := by
  by_contra hinvalid
  obtain ⟨-, hskipped⟩ | ⟨hg, -⟩ := guarded_cases h
  · have hupc : s.upc = s.upc + 1 := congrArg State.upc hskipped
    simp at hupc
  · rw [exec_map_invalid hg (by simpa using hinvalid)] at h
    injection h with h
    have hcause : Cause.latch = .idx := congrArg (·.fault.cause) h
    cases hcause

/-- An instruction that changes FAULT is a `MAP` or an `OSC_SET` that read an invalid latch, or a `MAP` whose index is out
of range under the fault policy (60_exceptions.md R201). -/
theorem exec_records {i : Instr} {s t : State} (h : exec i s = .next t) (hne : t.fault ≠ s.fault) :
    (t = raiseFault .latch (encode i) s ∧ (s.glat.valid = false ∨ s.mapout.valid = false))
      ∨ ∃ index, index ≤ 32767 ∧ t = raiseFault .idx (BitVec.ofNat 16 index) s ∧ s.cfg.indexPolicy = .fault
          ∧ s.glat.valid = true ∧ s.cfg.table.length ≤ index := by
  cases execPath_of_exec h with
  | mapLatchFault hinvalid => exact .inl ⟨rfl, .inl hinvalid⟩
  | setLatchFault _ hinvalid => exact .inl ⟨rfl, .inr hinvalid⟩
  | mapIndexFault index hle hlen hpolicy =>
    exact .inr ⟨index, hle, rfl, hpolicy, glat_valid_of_map_indexFault h, hlen⟩
  | _ => exact absurd rfl hne

/-! ### The halted block -/

/-- A step of a halted machine is a move of the environment alone (60_exceptions.md R204). -/
theorem step_halted {s : State} (hr : s.rst = false) (hc : s.fault.cause ≠ .none) :
    step s = .next (environment s) := by
  rw [step_out_of_reset hr, blockStep_halted hc, mapNext_next]

/-! ### Holding -/

/-- If the attempt changes nothing while the agents' part has the property `p`, and the moves to come keep `p`, only the
agents move, for as many steps as there are moves. -/
theorem run_holds {p : State → Prop} {s : State} {es rest : List EnvMove} (hr : s.rst = false)
    (hhold : ∀ a, p a → blockStep (withAgents a s) = .next (withAgents a s)) (hn : NoReset es)
    (hkeep : ∀ e ∈ es, ∀ a, p a → p (agentsMove e (consumeMove a))) :
    ∀ {a : State}, p a → a.inputs = es ++ rest →
      ∃ b, core.run es.length (withAgents a s) = .next (withAgents b s)
        ∧ p b ∧ b.inputs = rest ∧ b.moment = a.moment + es.length := by
  induction es with
  | nil => exact fun {a} hp hin => ⟨a, run_zero _, hp, hin, rfl⟩
  | cons e es ih =>
    intro a hp hin
    obtain ⟨he, hes⟩ := List.forall_mem_cons.mp hn
    obtain ⟨hkeepe, hkeepes⟩ := List.forall_mem_cons.mp hkeep
    have hstep := step_withAgents hr (hhold a hp) hin he
    obtain ⟨b, hrun, hpb, hb, hmoment⟩ := ih hes hkeepes (hkeepe a hp) (by simp [hin])
    refine ⟨b, (run_succ_next hstep).trans hrun, hpb, hb, ?_⟩
    rw [hmoment, agentsMove_moment, consumeMove_moment, List.length_cons, Nat.add_assoc, Nat.add_comm 1]

theorem blockStep_smpComplete_holds {g : Bool} {ph : Nibble} {s : State} (hc : s.fault.cause = .none)
    (hword : decode (fetch s) = .ok (.smpComplete g ph)) (hperf : guardPasses g ph s = true)
    (hdone : s.adc.done = false) : blockStep s = .next s := by
  rw [blockStep_running hc hword, exec_smpComplete hperf, hdone]
  rfl

theorem agentsMove_tmr_quiet {e : EnvMove} (s : State) (h : e.timerElapses = false) :
    (agentsMove e s).tmr = s.tmr := by
  simp [h]

theorem agentsMove_adc_quiet {e : EnvMove} (s : State) (h : e.adcCompletes = none) :
    (agentsMove e s).adc = s.adc := by
  rw [agentsMove, h, adcMove_none, timerMove_adc]

end Sys2Proof.Machine

namespace Sys2Proof.Proofs

open Sys2Proof.Machine Sys2Proof.Safety

/-- Settles O37. Under the default micro-program the block stands at the instruction of its place, each path of which
keeps the facts: neither `LATCH` fault is one, because the facts say that the latches are valid where they are read. The
agents' moves keep them as well, and a reset or a new micro-program starts from them again. -/
theorem defaultRomKeepsItsProperties : Obligations.DefaultRomKeepsItsProperties :=
  fun _ _ hi hf h => step_keeps_romInv hi hf h

/-- Settles O25: a halted block records nothing; an illegal word and the fault paths of an instruction end in
`raiseFault`, with the word that the instruction is the reading of. -/
theorem faultEntryWritesOnlyFault : Obligations.FaultEntryWritesOnlyFault := by
  intro s t h hne
  obtain ⟨-, rfl⟩ | ⟨-, e, he, rfl⟩ | ⟨-, i, hi, hexec⟩ := blockStep_cases h
  · exact absurd rfl hne
  · exact ⟨rfl, .inl ⟨rfl, rfl, e, he⟩⟩
  · have hword : encode i = fetch s := (decode_eq_ok_iff.mp hi).2
    obtain ⟨rfl, hinvalid⟩ | ⟨index, hle, rfl, hpolicy, hvalid, hlen⟩ := exec_records hexec hne
    · exact ⟨rfl, .inr (.inl ⟨rfl, hword, hinvalid⟩)⟩
    · have hinfo : (BitVec.ofNat 16 index).toNat = index := by
        rw [BitVec.toNat_ofNat, Nat.mod_eq_of_lt (by omega)]
      refine ⟨rfl, .inr (.inr ⟨rfl, hpolicy, hvalid, ?_⟩)⟩
      rw [raiseFault_fault, hinfo]
      exact ⟨hlen, hle⟩

/-- Settles O26: a halted block holds whatever the agents' part is. -/
theorem faultIsStickyUntilReset : Obligations.FaultIsStickyUntilReset := by
  intro es rest s hr hc hin hn
  obtain ⟨b, hrun, -, hb, hmoment⟩ := run_holds (p := fun _ => True) (s := s) hr (fun _ _ => blockStep_halted hc) hn
    (fun _ _ _ _ => trivial) trivial hin
  refine ⟨withAgents b s, hrun, ?_, bne_iff_ne.mpr hc⟩
  rw [← hb, ← hmoment]
  rfl

/-- Settles O28: `TICK_WAIT` holds while the timer is as it was, and moves without an elapse leave it so. -/
theorem stuckTimerHoldsTheBlock : Obligations.StuckTimerHoldsTheBlock := by
  intro es rest s g ph ⟨hr, hc⟩ hword hperf hflag hin hn hquiet
  have hat : AtTickWait g ph s := ⟨hc, hword, hperf⟩
  obtain ⟨b, hrun, htmr, hb, hmoment⟩ := run_holds (p := fun a => a.tmr = s.tmr) hr
    (fun _ ha => blockStep_tickWait_holds hat (by rw [ha, hflag])) hn
    (fun e he a ha => (agentsMove_tmr_quiet (consumeMove a) (hquiet e he)).trans ha) rfl hin
  refine ⟨withAgents b s, hrun, ?_⟩
  rw [← hb, ← hmoment, withAgents, htmr]

/-- Settles O29: `SMP_COMPLETE` holds while the ADC is as it was, and moves without a completion leave it so. -/
theorem stuckAdcHoldsTheBlock : Obligations.StuckAdcHoldsTheBlock := by
  intro es rest s g ph ⟨hr, hc⟩ hword hperf hwait hin hn hquiet
  obtain ⟨b, hrun, hadc, hb, hmoment⟩ := run_holds (p := fun a => a.adc = s.adc) hr
    (fun a ha => blockStep_smpComplete_holds (s := withAgents a s) hc hword hperf
      ((congrArg Adc.done ha).trans hwait)) hn
    (fun e he a ha => (agentsMove_adc_quiet (consumeMove a) (hquiet e he)).trans ha) rfl hin
  refine ⟨withAgents b s, hrun, ?_⟩
  rw [← hb, ← hmoment, withAgents, hadc]

/-- Settles O27: in a step of a halted machine only a reset writes FAULT, and it clears it. -/
theorem onlyResetLeavesTheHaltedState : Obligations.OnlyResetLeavesTheHaltedState := by
  intro s t hr hc h hne
  obtain rfl : environment s = t := Host.Outcome.next.inj ((step_halted hr hc).symm.trans h)
  obtain ⟨hreset, he⟩ | ⟨-, he⟩ := environment_cases s
  · rw [he]
    exact ⟨hreset, rfl, rfl⟩
  · rw [he, agentsMove_fault, consumeMove_fault] at hne
    exact absurd rfl hne

end Sys2Proof.Proofs
end

section
/-! Reset held and released (70_reset_and_hazards.md R230, R231, R234): the step for each move of the host while reset is
held. At the release the ADC is at rest, as reset left it, so of the agents only the timer can move. -/

namespace Sys2Proof.Machine

open Sys2Proof.Safety

/-! ### Reset held -/

theorem heldStep_reset {e : EnvMove} {s : State} (h : e.host = .reset) : heldStep e s = .next s := by
  simp only [heldStep, h]

theorem heldStep_supply {e : EnvMove} {s : State} {cfg : Params} {rom : Rom} (h : e.host = .supply cfg rom) :
    heldStep e s = .next (State.atReset cfg rom s.inputs s.moment) := by
  simp only [heldStep, h]

/-! ### The release -/

theorem heldStep_release {e : EnvMove} {s : State} (h : e.host = .idle) (hallowed : AllowedByR10 s.cfg) :
    heldStep e s = .next (agentsMove e (releaseReset s)) := by
  simp only [heldStep, h, (paramsLegal_iff s.cfg).mpr hallowed, if_true]

theorem heldStep_release_forbidden {e : EnvMove} {s : State} (h : e.host = .idle) (hforbidden : ¬ AllowedByR10 s.cfg) :
    heldStep e s = .refused .illegalConfiguration := by
  simp only [heldStep, h, mt (paramsLegal_iff s.cfg).mp hforbidden, if_false, Bool.false_eq_true]

/-- What the release relies on of a held reset (10_state.md R41): the ADC at rest, no fault, word 0, no request made. -/
theorem held_values {s : State} (hi : Inv s) (hr : s.rst = true) :
    s.adc.busy = false ∧ s.fault.cause = .none ∧ s.upc = 0 ∧ s.events = [] := by
  obtain ⟨m, hs⟩ := hi.held hr
  rw [hs]
  exact ⟨rfl, rfl, rfl, rfl⟩

/-- With no conversion in flight, the agents' move is the timer's alone (42_sampler.md R142, 43_scheduler.md R167). -/
theorem agentsMove_of_adc_idle {e : EnvMove} {s : State} (h : s.adc.busy = false) :
    agentsMove e s = { s with tmr := { s.tmr with elapsed := s.tmr.elapsed || (e.timerElapses && s.tmr.running) } } := by
  rw [agentsMove, adcMove_idle _ _ (by rw [timerMove_adc, h]), timerMove_eq]

/-- The release starts the timer, which may elapse at once (log 1), and writes nothing else. -/
theorem agentsMove_releaseReset {e : EnvMove} {s : State} (h : s.adc.busy = false) :
    agentsMove e (releaseReset s) =
      { s with
        tmr := { elapsed := e.timerElapses, running := true, period := s.cfg.tickPeriod }
        events := .tmrStart s.cfg.tickPeriod :: s.events
        rst := false } := by
  rw [agentsMove_of_adc_idle (by rw [releaseReset_adc, h]), releaseReset_tmr, Bool.and_true, Bool.false_or]
  rfl

end Sys2Proof.Machine

namespace Sys2Proof.Proofs

open Sys2Proof.Machine Sys2Proof.Safety

/-- Settles O32: while reset is held a step is the host's move, made on a state of which only the move is used up. -/
theorem heldResetTakesNoStep : Obligations.HeldResetTakesNoStep := by
  intro s hr
  rw [step_in_reset hr]
  exact ⟨fun hreset => heldStep_reset hreset, fun _ _ hsupply => heldStep_supply hsupply⟩

/-- Settles O33: the host's release is refused, or starts the timer on the values that reset left. -/
theorem releaseStartsTheTimerAndTheSequencer : Obligations.ReleaseStartsTheTimerAndTheSequencer := by
  intro s hi hr hidle
  obtain ⟨hadc, hfault, hupc, hevents⟩ := held_values hi hr
  rw [step_in_reset hr]
  constructor
  · intro hallowed
    rw [heldStep_release (s := consumeMove s) hidle hallowed, agentsMove_releaseReset (s := consumeMove s) hadc,
      consumeMove_events, hevents]
    exact ⟨_, rfl, ⟨rfl, hfault⟩, hupc, rfl, rfl, rfl⟩
  · exact fun hforbidden => heldStep_release_forbidden hidle hforbidden

/-- A held reset under seven channels, where 00_scope.md R10 asks for eight; the host's next move is the release. -/
def heldWithSevenChannels : State :=
  State.atReset { State.reset.cfg with nCh := 7 } State.reset.rom
    [{ host := .idle, timerElapses := false, adcCompletes := none }] 0

/-- The hypotheses of O33 can be met with a configuration that R10 forbids: the release of this state is refused. -/
theorem step_heldWithSevenChannels : step heldWithSevenChannels = .refused .illegalConfiguration :=
  (releaseStartsTheTimerAndTheSequencer heldWithSevenChannels (inv_atReset _ _ _ _) rfl rfl).2
    fun hallowed => absurd hallowed.1 (by decide)

end Sys2Proof.Proofs
end
